-- ==== Sys2Proof/Word.lean ====
section
/-! DEFINITION. The widths of the core: bytes, 16-bit words, 12-bit addresses, 4-bit fields (00_scope.md R9, 30_encoding.md R73). -/

namespace Sys2Proof

/-- A register, a timer value, a memory byte or a literal `kk`: 8 bits (10_state.md R20). -/
abbrev Byte := BitVec 8

/-- An opcode, and the storage of `pc` and `I`: 16 bits (30_encoding.md R70, 10_state.md R23, R24). -/
abbrev Word := BitVec 16

/-- A literal address `nnn`, and a stack entry: 12 bits (30_encoding.md R73, 10_state.md R25). -/
abbrev Addr := BitVec 12

/-- A register number `x` or `y`, a nibble of an opcode, and DRW's count `n`: 4 bits (30_encoding.md R73). -/
abbrev Nibble := BitVec 4

/-- VF, the flag register (10_state.md R21). -/
abbrev vF : Nibble := 0xF#4

end Sys2Proof
end

