-- ==== Sys2Proof/Machine/Flags.lean ====
section
/-! DEFINITION. Every arithmetic result and flag the spec gives: exact integer arithmetic, narrowed at the end (00_scope.md R12, 42_alu.md R125). -/

namespace Sys2Proof.Machine

/-- A one-bit flag as VF holds it: 1 or 0 (42_alu.md R126, 44_display.md R174). -/
def flagByte (b : Bool) : Byte := if b then 1 else 0

/-- `(a + b) mod 256` (42_alu.md R125). -/
def addResult (a b : Byte) : Byte := BitVec.ofNat 8 (a.toNat + b.toNat)

/-- The carry of an addition: 1 if `a + b ≥ 256` (42_alu.md R125, R132). -/
def carry (a b : Byte) : Bool := decide (256 ≤ a.toNat + b.toNat)

/-- `(a - b) mod 256` (42_alu.md R125). -/
def subResult (a b : Byte) : Byte := BitVec.ofInt 8 ((a.toNat : Int) - (b.toNat : Int))

/-- The not-borrow of `a - b`: 1 if `a ≥ b` (42_alu.md R125, R126). -/
def notBorrow (a b : Byte) : Bool := decide (b.toNat ≤ a.toNat)

/-- `s >> 1` (42_alu.md R133). -/
def shrResult (s : Byte) : Byte := s >>> 1

/-- The bit SHR shifts out, `s & 1` (42_alu.md R133). -/
def shrOut (s : Byte) : Bool := s.getLsbD 0

/-- `(s << 1) mod 256` (42_alu.md R135). -/
def shlResult (s : Byte) : Byte := s <<< 1

/-- The bit SHL shifts out, `s >> 7` (42_alu.md R135). -/
def shlOut (s : Byte) : Bool := s.getLsbD 7

end Sys2Proof.Machine
end

