-- ==== Sys2Proof/Config.lean ====
section
/-! DEFINITION. The parameters of the core (00_scope.md R10) and the free values. The reference configuration and the font table stand in Machine/Profile.lean. -/

namespace Sys2Proof

/-- `SHIFT_SRC`: the operand that SHR and SHL read (00_scope.md R10; 92_eei_decisions.md D2). -/
inductive ShiftSrc where
  | vx
  | vy
  deriving DecidableEq, Repr

/-- `RESET_FILL`: what the spec leaves open at construction is zero, or a draw (00_scope.md R10; D6). -/
inductive ResetFill where
  | zero
  | arbitrary
  deriving DecidableEq, Repr

/-- The font: 16 glyphs of 5 bytes, the glyph of digit d at `d*5 .. d*5+4` (10_state.md R33). -/
abbrev Font := Vector (Vector Byte 5) 16

/-- The configuration a model is instantiated with (00_scope.md R10). `PC_WIDTH` and `I_WIDTH` are
fixed at 16 there, so they are no fields. -/
structure Config where
  /-- `FULL_ALU`: the rows 8xy1, 8xy3, 8xy4, 8xy6, 8xy7, 8xyE decode (30_encoding.md R84). -/
  fullAlu : Bool
  /-- `SHIFT_SRC` (42_alu.md R133, R135). -/
  shiftSrc : ShiftSrc
  /-- `HALT_OPCODE`: the halt sentinel's word, or none (30_encoding.md R86). -/
  haltOpcode : Option Word
  /-- `FONT` (10_state.md R33). -/
  font : Font
  /-- `FONT_WRITABLE`: whether a data write to 0x000..0x04F succeeds (20_memory.md R55). -/
  fontWritable : Bool
  /-- `RESET_FILL` (10_state.md R36). -/
  resetFill : ResetFill
  /-- `LS_INDEX_INC`: whether Fx55 and Fx65 set I to I + x + 1 (43_index_memory.md R156). -/
  lsIndexInc : Bool
  deriving DecidableEq, Repr

/-- The n-th random byte, a free value: nothing constrains it (42_alu.md R136; D25; log 7). -/
opaque Config.freeRnd : Nat → Byte

/-- The draw of V[n] at construction under `RESET_FILL = arbitrary` (10_state.md R36; log 6). -/
opaque Config.freeReg : Nat → Byte

/-- The draw of I at construction under `RESET_FILL = arbitrary` (10_state.md R36; log 6). -/
opaque Config.freeIndex : Word

/-- The draw of S[n] at construction under `RESET_FILL = arbitrary` (10_state.md R36; log 6). -/
opaque Config.freeStack : Nat → Addr

/-- The draw of M[a] at construction under `RESET_FILL = arbitrary` (10_state.md R36; log 6). -/
opaque Config.freeMem : Nat → Byte

end Sys2Proof
end

