-- ==== Sys2Proof/Machine/Profile.lean ====
section
/-! DEFINITION. Values of the parameters: the reference configuration of 00_scope.md R10 with its font, the configuration in which every row of the opcode table exists, and what memory reads as at reset. -/

namespace Sys2Proof

/-- The conventional CHIP-8 font, the reference value of FONT (10_state.md R33, which takes the bytes from
general knowledge; log 3). -/
def Config.referenceFont : Font :=
  #v[#v[0xF0, 0x90, 0x90, 0x90, 0xF0], #v[0x20, 0x60, 0x20, 0x20, 0x70],
     #v[0xF0, 0x10, 0xF0, 0x80, 0xF0], #v[0xF0, 0x10, 0xF0, 0x10, 0xF0],
     #v[0x90, 0x90, 0xF0, 0x10, 0x10], #v[0xF0, 0x80, 0xF0, 0x10, 0xF0],
     #v[0xF0, 0x80, 0xF0, 0x90, 0xF0], #v[0xF0, 0x10, 0x20, 0x40, 0x40],
     #v[0xF0, 0x90, 0xF0, 0x90, 0xF0], #v[0xF0, 0x90, 0xF0, 0x10, 0xF0],
     #v[0xF0, 0x90, 0xF0, 0x90, 0x90], #v[0xE0, 0x90, 0xE0, 0x90, 0xE0],
     #v[0xF0, 0x80, 0x80, 0x80, 0xF0], #v[0xE0, 0x90, 0x90, 0x90, 0xE0],
     #v[0xF0, 0x80, 0xF0, 0x80, 0xF0], #v[0xF0, 0x80, 0xF0, 0x80, 0x80]]

/-- The reference configuration: the column "reference" of 00_scope.md R10. -/
def Config.reference : Config :=
  { fullAlu := false, shiftSrc := .vx, haltOpcode := none, font := Config.referenceFont,
    fontWritable := true, resetFill := .zero, lsIndexInc := false }

/-- The configuration in which every row of spec/opcode_table.json exists: FULL_ALU, and the halt word that
95_test_vectors.md C14 uses. DESIGN CHOICE (log 17): it serves `decodeTableWord` and `State.withFetchWord` only. -/
def Config.everyRow : Config :=
  { Config.reference with fullAlu := true, haltOpcode := some 0xFFFF#16 }

/-- What the byte at address `a` is after construction, before any load or write (10_state.md R36,
70_reset_and_hazards.md R240): the font at 0x000..0x04F, elsewhere the RESET_FILL value (logs 5, 6). -/
def Config.initialByte (c : Config) (a : Nat) : Byte :=
  if h : a < 80 then (c.font[a / 5]'(by omega))[a % 5]'(by omega)
  else match c.resetFill with
    | .zero => 0
    | .arbitrary => Config.freeMem a

end Sys2Proof
end

