-- ==== Sys2Proof/Syntax.lean ====
section
/-! DEFINITION. The instructions: one constructor per row of spec/opcode_table.json (30_encoding.md R80, R81). -/

namespace Sys2Proof

/-- The 34 kinds of 30_encoding.md R80 with the operand fields of R71 to R73. -/
inductive Instr where
  /-- `00E0` CLS (44_display.md R171). -/
  | cls
  /-- `00EE` RET (41_control.md R100). -/
  | ret
  /-- `1nnn` JP nnn (R101). -/
  | jp (nnn : Addr)
  /-- `2nnn` CALL nnn (R102). -/
  | call (nnn : Addr)
  /-- `3xkk` SE Vx, kk (R103). -/
  | seImm (x : Nibble) (kk : Byte)
  /-- `4xkk` SNE Vx, kk (R104). -/
  | sneImm (x : Nibble) (kk : Byte)
  /-- `5xy0` SE Vx, Vy (R105). -/
  | seReg (x y : Nibble)
  /-- `9xy0` SNE Vx, Vy (R106). -/
  | sneReg (x y : Nibble)
  /-- `6xkk` LD Vx, kk (42_alu.md R121). -/
  | ldImm (x : Nibble) (kk : Byte)
  /-- `7xkk` ADD Vx, kk (R122). -/
  | addImm (x : Nibble) (kk : Byte)
  /-- `8xy0` LD Vx, Vy (R123). -/
  | ldReg (x y : Nibble)
  /-- `8xy2` AND Vx, Vy (R124). -/
  | andReg (x y : Nibble)
  /-- `8xy5` SUB Vx, Vy (R126). -/
  | sub (x y : Nibble)
  /-- `8xy1` OR Vx, Vy, FULL_ALU only (R130). -/
  | orReg (x y : Nibble)
  /-- `8xy3` XOR Vx, Vy, FULL_ALU only (R131). -/
  | xorReg (x y : Nibble)
  /-- `8xy4` ADD Vx, Vy, FULL_ALU only (R132). -/
  | addReg (x y : Nibble)
  /-- `8xy6` SHR Vx, Vy, FULL_ALU only (R133). -/
  | shr (x y : Nibble)
  /-- `8xy7` SUBN Vx, Vy, FULL_ALU only (R134). -/
  | subn (x y : Nibble)
  /-- `8xyE` SHL Vx, Vy, FULL_ALU only (R135). -/
  | shl (x y : Nibble)
  /-- `Annn` LD I, nnn (43_index_memory.md R150). -/
  | ldI (nnn : Addr)
  /-- `Cxkk` RND Vx, kk (42_alu.md R136). -/
  | rnd (x : Nibble) (kk : Byte)
  /-- `Dxyn` DRW Vx, Vy, n (44_display.md R172). -/
  | drw (x y n : Nibble)
  /-- `Ex9E` SKP Vx (45_timers_keys.md R190). -/
  | skp (x : Nibble)
  /-- `ExA1` SKNP Vx (R191). -/
  | sknp (x : Nibble)
  /-- `Fx07` LD Vx, DT (R192). -/
  | ldVxDt (x : Nibble)
  /-- `Fx0A` LD Vx, K (R193). -/
  | ldVxK (x : Nibble)
  /-- `Fx15` LD DT, Vx (R197). -/
  | ldDtVx (x : Nibble)
  /-- `Fx18` LD ST, Vx (R198). -/
  | ldStVx (x : Nibble)
  /-- `Fx1E` ADD I, Vx (43_index_memory.md R151). -/
  | addIVx (x : Nibble)
  /-- `Fx29` LD F, Vx (R152). -/
  | ldFVx (x : Nibble)
  /-- `Fx33` LD B, Vx (R153). -/
  | ldBVx (x : Nibble)
  /-- `Fx55` LD [I], Vx (R154). -/
  | ldMemVx (x : Nibble)
  /-- `Fx65` LD Vx, [I] (R155). -/
  | ldVxMem (x : Nibble)
  /-- The word `HALT_OPCODE`, when it is set (41_control.md R107). -/
  | halt
  deriving DecidableEq, Repr

/-- The decoder's `kind` output: the 34 kinds of 30_encoding.md R80, or NONE (10_state.md R40). -/
inductive Kind where
  | CLS | RET | JP | CALL | SE_IMM | SNE_IMM | SE_REG | SNE_REG | LD_IMM | ADD_IMM | LD_REG
  | OR | AND | XOR | ADD_REG | SUB | SHR | SUBN | SHL | LD_I | RND | DRW | SKP | SKNP
  | LD_VX_DT | LD_VX_K | LD_DT_VX | LD_ST_VX | ADD_I_VX | LD_F_VX | LD_B_VX | LD_MEM_VX
  | LD_VX_MEM | HALT | NONE
  deriving DecidableEq, Repr

/-- The kind of an instruction (30_encoding.md R80). -/
def Instr.kind : Instr → Kind
  | .cls => .CLS
  | .ret => .RET
  | .jp _ => .JP
  | .call _ => .CALL
  | .seImm _ _ => .SE_IMM
  | .sneImm _ _ => .SNE_IMM
  | .seReg _ _ => .SE_REG
  | .sneReg _ _ => .SNE_REG
  | .ldImm _ _ => .LD_IMM
  | .addImm _ _ => .ADD_IMM
  | .ldReg _ _ => .LD_REG
  | .andReg _ _ => .AND
  | .sub _ _ => .SUB
  | .orReg _ _ => .OR
  | .xorReg _ _ => .XOR
  | .addReg _ _ => .ADD_REG
  | .shr _ _ => .SHR
  | .subn _ _ => .SUBN
  | .shl _ _ => .SHL
  | .ldI _ => .LD_I
  | .rnd _ _ => .RND
  | .drw _ _ _ => .DRW
  | .skp _ => .SKP
  | .sknp _ => .SKNP
  | .ldVxDt _ => .LD_VX_DT
  | .ldVxK _ => .LD_VX_K
  | .ldDtVx _ => .LD_DT_VX
  | .ldStVx _ => .LD_ST_VX
  | .addIVx _ => .ADD_I_VX
  | .ldFVx _ => .LD_F_VX
  | .ldBVx _ => .LD_B_VX
  | .ldMemVx _ => .LD_MEM_VX
  | .ldVxMem _ => .LD_VX_MEM
  | .halt => .HALT

end Sys2Proof
end

