-- ==== Sys2Proof/WellFormed.lean ====
section
/-! DEFINITION. Which instructions exist in a configuration (30_encoding.md R81, R84, R86). Every operand field is as wide as its type says, so the rows' conditions are the only checks. -/

namespace Sys2Proof

/-- The row of `i` is in the opcode table of configuration `c`: the rows 8xy1, 8xy3, 8xy4, 8xy6, 8xy7
and 8xyE need FULL_ALU, and HALT needs HALT_OPCODE (30_encoding.md R81). -/
def Instr.wellFormed (c : Config) : Instr → Bool
  | .orReg _ _ => c.fullAlu
  | .xorReg _ _ => c.fullAlu
  | .addReg _ _ => c.fullAlu
  | .shr _ _ => c.fullAlu
  | .subn _ _ => c.fullAlu
  | .shl _ _ => c.fullAlu
  | .halt => c.haltOpcode.isSome
  | .cls => true
  | .ret => true
  | .jp _ => true
  | .call _ => true
  | .seImm _ _ => true
  | .sneImm _ _ => true
  | .seReg _ _ => true
  | .sneReg _ _ => true
  | .ldImm _ _ => true
  | .addImm _ _ => true
  | .ldReg _ _ => true
  | .andReg _ _ => true
  | .sub _ _ => true
  | .ldI _ => true
  | .rnd _ _ => true
  | .drw _ _ _ => true
  | .skp _ => true
  | .sknp _ => true
  | .ldVxDt _ => true
  | .ldVxK _ => true
  | .ldDtVx _ => true
  | .ldStVx _ => true
  | .addIVx _ => true
  | .ldFVx _ => true
  | .ldBVx _ => true
  | .ldMemVx _ => true
  | .ldVxMem _ => true

end Sys2Proof
end

