-- ==== Sys2Proof/Decode.lean ====
section
/-! DEFINITION. The decoder, its outputs as a combinational block, the opcode map as a table, and the encoder (30_encoding.md, 10_state.md R40). -/

namespace Sys2Proof

/-! ## Fields (30_encoding.md R11, R73) -/

/-- `op[15:12]`, the first nibble decoded. -/
def fieldMajor (op : Word) : Nibble := op.extractLsb' 12 4

/-- `x = op[11:8]`. -/
def fieldX (op : Word) : Nibble := op.extractLsb' 8 4

/-- `y = op[7:4]`. -/
def fieldY (op : Word) : Nibble := op.extractLsb' 4 4

/-- `n = op[3:0]`. -/
def fieldN (op : Word) : Nibble := op.extractLsb' 0 4

/-- `kk = op[7:0]`. -/
def fieldKk (op : Word) : Byte := op.extractLsb' 0 8

/-- `nnn = op[11:0]`. -/
def fieldNnn (op : Word) : Addr := op.extractLsb' 0 12

/-- The opcode fetched as two bytes, the byte at the lower address first: big-endian (20_memory.md R51). -/
def wordOfBytes (first second : Byte) : Word := first ++ second

/-- The byte of an opcode at the lower address, `op[15:8]` (20_memory.md R51). -/
def wordFirstByte (op : Word) : Byte := op.extractLsb' 8 8

/-- The byte of an opcode at the higher address, `op[7:0]` (20_memory.md R51). -/
def wordSecondByte (op : Word) : Byte := op.extractLsb' 0 8

/-! ## The decoder (30_encoding.md R80) -/

/-- Row 0: exactly two whole-word literals (R82). -/
def decodeRow0 (op : Word) : Option Instr :=
  if op = 0x00E0#16 then some .cls
  else if op = 0x00EE#16 then some .ret
  else none

/-- Row 8, selected by the low nibble (R84). -/
def decodeRow8 (fullAlu : Bool) (x y n : Nibble) : Option Instr :=
  if n = 0x0#4 then some (.ldReg x y)
  else if n = 0x2#4 then some (.andReg x y)
  else if n = 0x5#4 then some (.sub x y)
  else if fullAlu = false then none
  else if n = 0x1#4 then some (.orReg x y)
  else if n = 0x3#4 then some (.xorReg x y)
  else if n = 0x4#4 then some (.addReg x y)
  else if n = 0x6#4 then some (.shr x y)
  else if n = 0x7#4 then some (.subn x y)
  else if n = 0xE#4 then some (.shl x y)
  else none

/-- Row E, selected by the low byte (R80). -/
def decodeRowE (x : Nibble) (kk : Byte) : Option Instr :=
  if kk = 0x9E#8 then some (.skp x)
  else if kk = 0xA1#8 then some (.sknp x)
  else none

/-- Row F, selected by the low byte (R80). -/
def decodeRowF (x : Nibble) (kk : Byte) : Option Instr :=
  if kk = 0x07#8 then some (.ldVxDt x)
  else if kk = 0x0A#8 then some (.ldVxK x)
  else if kk = 0x15#8 then some (.ldDtVx x)
  else if kk = 0x18#8 then some (.ldStVx x)
  else if kk = 0x1E#8 then some (.addIVx x)
  else if kk = 0x29#8 then some (.ldFVx x)
  else if kk = 0x33#8 then some (.ldBVx x)
  else if kk = 0x55#8 then some (.ldMemVx x)
  else if kk = 0x65#8 then some (.ldVxMem x)
  else none

/-- The decoder of R80 without its HALT line; `none` is NotRecognized. -/
def decodeHistorical (fullAlu : Bool) (op : Word) : Option Instr :=
  let x := fieldX op
  let y := fieldY op
  let n := fieldN op
  let kk := fieldKk op
  let nnn := fieldNnn op
  let major := fieldMajor op
  if major = 0x0#4 then decodeRow0 op
  else if major = 0x1#4 then some (.jp nnn)
  else if major = 0x2#4 then some (.call nnn)
  else if major = 0x3#4 then some (.seImm x kk)
  else if major = 0x4#4 then some (.sneImm x kk)
  else if major = 0x5#4 then (if n = 0x0#4 then some (.seReg x y) else none)
  else if major = 0x6#4 then some (.ldImm x kk)
  else if major = 0x7#4 then some (.addImm x kk)
  else if major = 0x8#4 then decodeRow8 fullAlu x y n
  else if major = 0x9#4 then (if n = 0x0#4 then some (.sneReg x y) else none)
  else if major = 0xA#4 then some (.ldI nnn)
  else if major = 0xB#4 then none
  else if major = 0xC#4 then some (.rnd x kk)
  else if major = 0xD#4 then some (.drw x y n)
  else if major = 0xE#4 then decodeRowE x kk
  else decodeRowF x kk

/-- `decode(op)` of R80: the HALT line first, then the historical rows; `none` is NotRecognized. -/
def decode (c : Config) (op : Word) : Option Instr :=
  if c.haltOpcode = some op then some .halt else decodeHistorical c.fullAlu op

/-- The condition of 30_encoding.md R86 on a configuration: HALT_OPCODE, when set, is a word the decoder without
the HALT line does not recognize. -/
def Config.legal (c : Config) : Bool :=
  match c.haltOpcode with
  | none => true
  | some h => (decodeHistorical c.fullAlu h).isNone

/-- Why a byte list gives no instruction. -/
inductive DecodeError where
  /-- Fewer than two bytes: no whole opcode (30_encoding.md R70). -/
  | truncated
  /-- The opcode matches no row (30_encoding.md R85). -/
  | notRecognized (op : Word)
  deriving DecidableEq, Repr

/-- Decode the first instruction of a byte list and give the rest of the list; every instruction is two
bytes, big-endian (30_encoding.md R70, 20_memory.md R51). -/
def decodeBytes (c : Config) : List Byte → Except DecodeError (Instr × List Byte)
  | first :: second :: rest =>
    match decode c (wordOfBytes first second) with
    | some i => .ok (i, rest)
    | none => .error (.notRecognized (wordOfBytes first second))
  | _ => .error .truncated

/-- The outputs of the decoder as a combinational block (10_state.md R40, 30_encoding.md R95). -/
structure DecoderOut where
  valid : Bool
  kind : Kind
  x : Nibble
  y : Nibble
  n : Nibble
  kk : Byte
  nnn : Addr
  deriving DecidableEq, Repr

/-- Every output is defined for every word: the fields are the slices whether or not the word is
recognized (30_encoding.md R95). -/
def decoderOut (c : Config) (op : Word) : DecoderOut :=
  { valid := (decode c op).isSome
    kind := ((decode c op).map Instr.kind).getD .NONE
    x := fieldX op, y := fieldY op, n := fieldN op, kk := fieldKk op, nnn := fieldNnn op }

/-! ## The opcode map as mask and match (30_encoding.md R81) -/

/-- One row of R81: an opcode selects it when `op &&& mask = value`. -/
structure OpcodeRow where
  mask : Word
  value : Word
  kind : Kind
  /-- The row is in the table only with FULL_ALU. -/
  needsFullAlu : Bool
  deriving DecidableEq, Repr

/-- The rows of control transfer, loads and the always-present arithmetic, in the table's order. -/
def opcodeRowsBase : List OpcodeRow :=
  [⟨0xFFFF, 0x00E0, .CLS, false⟩, ⟨0xFFFF, 0x00EE, .RET, false⟩, ⟨0xF000, 0x1000, .JP, false⟩,
   ⟨0xF000, 0x2000, .CALL, false⟩, ⟨0xF000, 0x3000, .SE_IMM, false⟩, ⟨0xF000, 0x4000, .SNE_IMM, false⟩,
   ⟨0xF00F, 0x5000, .SE_REG, false⟩, ⟨0xF00F, 0x9000, .SNE_REG, false⟩, ⟨0xF000, 0x6000, .LD_IMM, false⟩,
   ⟨0xF000, 0x7000, .ADD_IMM, false⟩, ⟨0xF00F, 0x8000, .LD_REG, false⟩, ⟨0xF00F, 0x8002, .AND, false⟩,
   ⟨0xF00F, 0x8005, .SUB, false⟩]

/-- The rows marked FULL_ALU. -/
def opcodeRowsFullAlu : List OpcodeRow :=
  [⟨0xF00F, 0x8001, .OR, true⟩, ⟨0xF00F, 0x8003, .XOR, true⟩, ⟨0xF00F, 0x8004, .ADD_REG, true⟩,
   ⟨0xF00F, 0x8006, .SHR, true⟩, ⟨0xF00F, 0x8007, .SUBN, true⟩, ⟨0xF00F, 0x800E, .SHL, true⟩]

/-- The rows of I, random, display, keys and timers. -/
def opcodeRowsRest : List OpcodeRow :=
  [⟨0xF000, 0xA000, .LD_I, false⟩, ⟨0xF000, 0xC000, .RND, false⟩, ⟨0xF000, 0xD000, .DRW, false⟩,
   ⟨0xF0FF, 0xE09E, .SKP, false⟩, ⟨0xF0FF, 0xE0A1, .SKNP, false⟩, ⟨0xF0FF, 0xF007, .LD_VX_DT, false⟩,
   ⟨0xF0FF, 0xF00A, .LD_VX_K, false⟩, ⟨0xF0FF, 0xF015, .LD_DT_VX, false⟩, ⟨0xF0FF, 0xF018, .LD_ST_VX, false⟩,
   ⟨0xF0FF, 0xF01E, .ADD_I_VX, false⟩, ⟨0xF0FF, 0xF029, .LD_F_VX, false⟩, ⟨0xF0FF, 0xF033, .LD_B_VX, false⟩,
   ⟨0xF0FF, 0xF055, .LD_MEM_VX, false⟩, ⟨0xF0FF, 0xF065, .LD_VX_MEM, false⟩]

/-- Every row of R81 with a fixed word. -/
def opcodeRows : List OpcodeRow := opcodeRowsBase ++ opcodeRowsFullAlu ++ opcodeRowsRest

/-- The HALT row, when HALT_OPCODE is set (R81). -/
def haltRow (c : Config) : List OpcodeRow :=
  match c.haltOpcode with
  | none => []
  | some h => [⟨0xFFFF, h, .HALT, false⟩]

/-- The opcode table of a configuration (R81). -/
def Config.opcodeTable (c : Config) : List OpcodeRow :=
  (opcodeRows.filter fun r => c.fullAlu || !r.needsFullAlu) ++ haltRow c

/-- `op` selects row `r` (R81). -/
def OpcodeRow.matches (r : OpcodeRow) (op : Word) : Bool := op &&& r.mask = r.value

/-! ## The encoder (30_encoding.md R71 to R73, R81) -/

/-- Format A: `Onnn`. -/
def encodeA (major : Nibble) (nnn : Addr) : Word := major ++ nnn

/-- Format XK: `Oxkk`; format XF is the same with a fixed function byte. -/
def encodeXK (major x : Nibble) (kk : Byte) : Word := major ++ x ++ kk

/-- Format XYN: `Oxyn`; format XY is the same with a fixed low nibble. -/
def encodeXYN (major x y n : Nibble) : Word := major ++ x ++ y ++ n

/-- The opcode of an instruction that is well formed in `c`. HALT is the word HALT_OPCODE (R86). -/
def encode (c : Config) : Instr → Word
  | .cls => 0x00E0#16
  | .ret => 0x00EE#16
  | .jp nnn => encodeA 0x1 nnn
  | .call nnn => encodeA 0x2 nnn
  | .seImm x kk => encodeXK 0x3 x kk
  | .sneImm x kk => encodeXK 0x4 x kk
  | .seReg x y => encodeXYN 0x5 x y 0x0
  | .sneReg x y => encodeXYN 0x9 x y 0x0
  | .ldImm x kk => encodeXK 0x6 x kk
  | .addImm x kk => encodeXK 0x7 x kk
  | .ldReg x y => encodeXYN 0x8 x y 0x0
  | .andReg x y => encodeXYN 0x8 x y 0x2
  | .sub x y => encodeXYN 0x8 x y 0x5
  | .orReg x y => encodeXYN 0x8 x y 0x1
  | .xorReg x y => encodeXYN 0x8 x y 0x3
  | .addReg x y => encodeXYN 0x8 x y 0x4
  | .shr x y => encodeXYN 0x8 x y 0x6
  | .subn x y => encodeXYN 0x8 x y 0x7
  | .shl x y => encodeXYN 0x8 x y 0xE
  | .ldI nnn => encodeA 0xA nnn
  | .rnd x kk => encodeXK 0xC x kk
  | .drw x y n => encodeXYN 0xD x y n
  | .skp x => encodeXK 0xE x 0x9E
  | .sknp x => encodeXK 0xE x 0xA1
  | .ldVxDt x => encodeXK 0xF x 0x07
  | .ldVxK x => encodeXK 0xF x 0x0A
  | .ldDtVx x => encodeXK 0xF x 0x15
  | .ldStVx x => encodeXK 0xF x 0x18
  | .addIVx x => encodeXK 0xF x 0x1E
  | .ldFVx x => encodeXK 0xF x 0x29
  | .ldBVx x => encodeXK 0xF x 0x33
  | .ldMemVx x => encodeXK 0xF x 0x55
  | .ldVxMem x => encodeXK 0xF x 0x65
  | .halt => c.haltOpcode.getD 0x0000#16

/-- The two bytes of an instruction as they lie in memory (20_memory.md R51). -/
def encodeBytes (c : Config) (i : Instr) : List Byte :=
  [wordFirstByte (encode c i), wordSecondByte (encode c i)]

/-! ## The opcode table's numbering -/

/-- The opcode whose bits are `w`, every bit above `nbits` zero (log 17). -/
def tableWord (nbits w : Nat) : Word := BitVec.ofNat 16 (w % 2 ^ nbits)

/-- What the decoder reads from a word of spec/opcode_table.json, laid out in memory as two big-endian bytes.
The table lists the optional rows too, so the configuration is the one in which every row exists (log 17). -/
def decodeTableWord (nbits w : Nat) : Option Instr :=
  let op := tableWord nbits w
  match decodeBytes Config.everyRow [wordFirstByte op, wordSecondByte op] with
  | .ok (i, _) => some i
  | .error _ => none

end Sys2Proof
end

