-- ==== Sys2Proof/Machine/State.lean ====
section
/-! DEFINITION. The state of the core (10_state.md R20 to R36) with the inputs and the host's queue, its reset value, and the reasons a step stops. -/

namespace Sys2Proof.Machine

/-- Machine status (10_state.md R29). -/
inductive Status where
  | running
  /-- The waiting-for-key state, with the latch `waitX` set. -/
  | waiting
  /-- After the HALT sentinel. -/
  | halted
  /-- After a fatal condition. -/
  | faulted
  deriving DecidableEq, Repr

/-- The kinds of fault (60_exceptions.md R212). -/
inductive FaultKind where
  | decode
  | stackOverflow
  | stackUnderflow
  | fetchRange
  | memRange
  | indexOverflow
  | fontWrite
  deriving DecidableEq, Repr

/-- The cause code of a fault kind (60_exceptions.md R212). -/
def FaultKind.code : FaultKind → Nat
  | .decode => 1
  | .stackOverflow => 2
  | .stackUnderflow => 3
  | .fetchRange => 4
  | .memRange => 5
  | .indexOverflow => 6
  | .fontWrite => 7

/-- The fault record (10_state.md R30): `opcode` is none for a fetch fault, `addr` is the pc of the
instruction that faulted. -/
structure FaultRecord where
  kind : FaultKind
  opcode : Option Word
  addr : Word
  deriving DecidableEq, Repr

/-- One countdown timer (10_state.md R27). -/
structure Timer where
  value : Byte
  active : Bool
  deriving DecidableEq, Repr

/-- The abstract tone signals (60_exceptions.md R223). -/
inductive ToneSignal where
  | toneStart
  | toneStop
  | stopFinal
  deriving DecidableEq, Repr

/-- The 64×32 screen, held as 32 rows of 64 pixels (10_state.md R28; the packing is not observable). -/
abbrev Screen := Vector (Vector Bool 64) 32

/-- Memory as the list of the bytes that differ from what the address reads as at reset, addresses rising
(`Memory.wf`, Machine/Ops.lean; log 5). -/
abbrev Memory := List Host.Cell

/-- A transaction the host may ask for (10_state.md R41 to R46). The diagnostic read (R45) has no effect and
needs none. -/
inductive HostOp where
  /-- One step with the given current-key value, any integer or none (R41). -/
  | step (keyIn : Option Int)
  /-- One tick of both timers (R42). -/
  | tick
  /-- Place the program's bytes at 0x200 (R43). -/
  | load (bytes : List Byte)
  /-- Copy the screen if it is dirty (R44). -/
  | render
  /-- The final tone stop (R46). -/
  | teardown
  deriving DecidableEq, Repr

/-- The state of the machine. The fields from `cfg` on are the parameters, the inputs and the model's own
records, which the spec does not count as state of the core (10_state.md R35). -/
structure State where
  /-- V0..VF (10_state.md R20). -/
  v : Vector Byte 16
  /-- I, 16 bits of storage (R24). -/
  idx : Word
  /-- The program counter, 16 bits of storage (R23). -/
  pc : Word
  /-- The stack pointer: the number of entries in use, 0..16 (R25). -/
  sp : Byte
  /-- The call stack (R25). -/
  stack : Vector Addr 16
  /-- The delay timer (R27). -/
  delay : Timer
  /-- The sound timer (R27). -/
  sound : Timer
  /-- The pixels (R28). -/
  screen : Screen
  /-- The changed-since-last-render flag (R28). -/
  dirty : Bool
  /-- Machine status (R29). -/
  status : Status
  /-- The destination of the pending key wait, meaningful only while waiting (R29). -/
  waitX : Nibble
  /-- The fault record (R30). -/
  fault : Option FaultRecord
  /-- Memory (R32). -/
  mem : Memory
  /-- The parameters (00_scope.md R10); no step changes them (log 1). -/
  cfg : Config
  /-- The host's current-key value, any integer or none (R31, R41; log 8). -/
  keyIn : Option Int
  /-- How many random bytes have been drawn (42_alu.md R136; log 7). The model's own. -/
  draws : Nat
  /-- The tone signals emitted so far, oldest first (60_exceptions.md R223; log 10). -/
  tones : List ToneSignal
  /-- The host's render target: the last picture copied (44_display.md R178; log 20). The model's own. -/
  frame : Option Screen
  /-- The transactions the host has queued, oldest first (10_state.md R47; log 9). The model's own. -/
  pending : List HostOp
  /-- A step has begun a fetch (70_reset_and_hazards.md R243; log 13). The model's own. -/
  started : Bool
  /-- Teardown has happened (10_state.md R46; log 13). The model's own. -/
  tornDown : Bool
  deriving DecidableEq, Repr

/-- Why the machine stops with no next state. The spec's own faults (60_exceptions.md R212) are next states. -/
inductive Fault where
  /-- Raised by CALL and RET when `sp` is above 16, or names no entry: the stack has no such entry
  (10_state.md R25 gives `sp` the values 0..16 only). Safe: no run reaches such a state (log 12). -/
  | stackPointerBeyondStack
  deriving DecidableEq, Repr

/-- Why the machine refuses to go on. -/
inductive Refusal where
  /-- Raised by `exec` for an instruction with no meaning yet. Safe. -/
  | notModelled (mnemonic : String)
  /-- Raised by `step` when HALT_OPCODE is a word of another row: "A model refuses a configuration that breaks
  this condition" (30_encoding.md R86; log 14). Safe. -/
  | illegalConfig
  /-- Raised by the load of more than 3584 bytes (70_reset_and_hazards.md R243). Safe. -/
  | loadTooLong
  /-- Raised by a load after the first step (70_reset_and_hazards.md R243, 93_implementation_defined.md U22). Safe. -/
  | loadAfterStart
  /-- Raised by every transaction after teardown (10_state.md R46, 93_implementation_defined.md U22; log 13). Safe. -/
  | afterTeardown
  deriving DecidableEq, Repr

/-- The screen with every pixel unset. -/
def Screen.clear : Screen := Vector.replicate 32 (Vector.replicate 64 false)

/-- Construction with configuration `c` (70_reset_and_hazards.md R240; the table of 10_state.md R36). -/
def State.resetWith (c : Config) : State :=
  { v := match c.resetFill with
      | .zero => Vector.replicate 16 0
      | .arbitrary => Vector.ofFn fun n => Config.freeReg n.val
    idx := match c.resetFill with
      | .zero => 0
      | .arbitrary => Config.freeIndex
    pc := 0x200
    sp := 0
    stack := match c.resetFill with
      | .zero => Vector.replicate 16 0
      | .arbitrary => Vector.ofFn fun n => Config.freeStack n.val
    delay := ⟨0, false⟩
    sound := ⟨0, false⟩
    screen := Screen.clear
    dirty := true
    status := .running
    waitX := 0
    fault := none
    mem := []
    cfg := c
    keyIn := none
    draws := 0
    tones := []
    frame := none
    pending := []
    started := false
    tornDown := false }

/-- The machine right after reset, in the reference configuration (00_scope.md R10; log 2). -/
def State.reset : State := State.resetWith Config.reference

end Sys2Proof.Machine
end

