-- ==== Sys2Proof/Machine/Ops.lean ====
section
/-! DEFINITION. The named operations over registers, memory, stack, timers, tones and pc, and taking a fault, the core's only exception. -/

namespace Sys2Proof.Machine

/-- What an instruction's meaning answers. -/
abbrev Outcome := Host.Outcome State Fault Refusal

/-! ## Registers (10_state.md R20) -/

/-- `V[x]`. -/
def State.readReg (s : State) (x : Nibble) : Byte := s.v[x.toNat]

/-- `V[x] <- b`. -/
def State.writeReg (s : State) (x : Nibble) (b : Byte) : State := { s with v := s.v.set x.toNat b }

/-- The flag write: `V[15] <- 1 or 0`, always made (10_state.md R21). -/
def State.writeFlag (s : State) (b : Byte) : State := s.writeReg vF b

/-- `I <- w`. -/
def State.setIndex (s : State) (w : Word) : State := { s with idx := w }

/-! ## Program counter (30_encoding.md R93, R94) -/

/-- The default advance, unmasked in the 16-bit pc (R93). -/
def State.advance (s : State) : State := { s with pc := s.pc + 2 }

/-- A skip instruction's advance: 4 when the condition holds, else 2 (R94). -/
def State.skipIf (s : State) (taken : Bool) : State := { s with pc := if taken then s.pc + 4 else s.pc + 2 }

/-- `pc <- zext_16(nnn)` (R74). -/
def State.jump (s : State) (nnn : Addr) : State := { s with pc := nnn.zeroExtend 16 }

/-! ## Memory (20_memory.md R50 to R56) -/

/-- The canonical form over the reset contents `d`: addresses strictly rising and inside 0x000..0xFFF, no
entry equal to what its address reads as unlisted (log 5). -/
abbrev Memory.wf (d : Nat → Byte) (m : Memory) : Prop :=
  m.Pairwise (fun c c' => c.1 < c'.1) ∧ ∀ c ∈ m, c.1 < 4096 ∧ c.2 ≠ d c.1

/-- The byte at `a`: the listed one, or the reset contents. -/
def Memory.get (d : Nat → Byte) (a : Nat) : Memory → Byte
  | [] => d a
  | (a', b) :: rest => if a' = a then b else Memory.get d a rest

/-- The memory with nothing listed at `a`. -/
def Memory.unlist (a : Nat) (m : Memory) : Memory := m.filter fun c => decide (c.1 ≠ a)

/-- The memory with `b` listed at `a`, before the first higher address. -/
def Memory.list (a : Nat) (b : Byte) : Memory → Memory
  | [] => [(a, b)]
  | c :: rest => if a < c.1 then (a, b) :: c :: rest else c :: Memory.list a b rest

/-- Make the byte at `a` read `b`, `dflt` being what it reads as unlisted: writing that value removes the entry. -/
def Memory.put (dflt : Byte) (a : Nat) (b : Byte) (m : Memory) : Memory :=
  if b = dflt then Memory.unlist a m else Memory.list a b (Memory.unlist a m)

/-- What the byte at `a` is, for an address of the memory; every read of memory goes through this. -/
def State.byteAt (s : State) (a : Nat) : Byte := Memory.get s.cfg.initialByte a s.mem

/-- `M[a] <- b` with the address already checked. -/
def State.putByte (s : State) (a : Nat) (b : Byte) : State :=
  { s with mem := Memory.put (s.cfg.initialByte a) a b s.mem }

/-- Consecutive bytes written from `a` on, in order. -/
def State.putBytes (s : State) (a : Nat) : List Byte → State
  | [] => s
  | b :: bs => (s.putByte a b).putBytes (a + 1) bs

/-- The `n` bytes from `a` on. -/
def State.bytesAt (s : State) (a : Nat) : Nat → List Byte
  | 0 => []
  | n + 1 => s.byteAt a :: s.bytesAt (a + 1) n

/-- What `raise Fault(kind, info)` gives (00_scope.md R13); `info` is diagnostic and is not recorded
(60_exceptions.md R212). -/
structure Raise where
  kind : FaultKind
  info : Nat
  deriving DecidableEq, Repr

/-- `MemRead(a, 1)` (20_memory.md R53). -/
def State.memRead (s : State) (a : Nat) : Except Raise Byte :=
  if 0xFFF < a then .error ⟨.memRange, a⟩ else .ok (s.byteAt a)

/-- The check of `MemWrite(a, 1, v)` (20_memory.md R55). -/
def checkWrite (c : Config) (a : Nat) : Except Raise Unit :=
  if 0xFFF < a then .error ⟨.memRange, a⟩
  else if c.fontWritable = false ∧ a ≤ 0x04F then .error ⟨.fontWrite, a⟩
  else .ok ()

/-- `MemWrite(a, 1, v)` (20_memory.md R55). -/
def State.memWrite (s : State) (a : Nat) (b : Byte) : Except Raise State :=
  match checkWrite s.cfg a with
  | .error r => .error r
  | .ok _ => .ok (s.putByte a b)

/-- Read `n` bytes from `a` on, every address checked first; the fault's info is the highest address
(20_memory.md R54, 60_exceptions.md R212). Reading no byte checks nothing (44_display.md R172). -/
def State.loadBytes (s : State) (a n : Nat) : Except Raise (List Byte) :=
  if 0 < n ∧ 0xFFF < a + n - 1 then .error ⟨.memRange, a + n - 1⟩ else .ok (s.bytesAt a n)

/-- Write the bytes from `a` on, every address checked as MemWrite would before the first write
(20_memory.md R54, R55; MEM_RANGE before FONT_WRITE, 60_exceptions.md R214). -/
def State.storeBytes (s : State) (a : Nat) (bs : List Byte) : Except Raise State :=
  if 0 < bs.length ∧ 0xFFF < a + bs.length - 1 then .error ⟨.memRange, a + bs.length - 1⟩
  else if 0 < bs.length ∧ s.cfg.fontWritable = false ∧ a ≤ 0x04F then .error ⟨.fontWrite, a⟩
  else .ok (s.putBytes a bs)

/-! ## Fetch (30_encoding.md R90, R91; 20_memory.md R51) -/

/-- The opcode at `pc`, or none when `pc > 0xFFE`. -/
def State.fetch (s : State) : Option Word :=
  if 0xFFE < s.pc.toNat then none
  else some (wordOfBytes (s.byteAt s.pc.toNat) (s.byteAt (s.pc.toNat + 1)))

/-! ## Taking a fault (60_exceptions.md R211) -/

/-- `enterFault(kind, opcode, pc)`: the only two writes of a fault; the handlerless core has no return from it
(R210, R215). -/
def State.enterFault (s : State) (kind : FaultKind) (opcode : Option Word) : State :=
  { s with status := .faulted, fault := some ⟨kind, opcode, s.pc⟩ }

/-- The end of an instruction `i` that may raise: its state when it did not, and the fault taken in the
state before it when it did, every write and signal discarded (R90, R211). The recorded opcode is the
word `i` is encoded by, which is the word that was fetched (log 16). -/
def State.settle (s : State) (i : Instr) : Except Raise State → Outcome
  | .ok s' => .next s'
  | .error r => .next (s.enterFault r.kind (some (encode s.cfg i)))

/-! ## Call stack (10_state.md R25) -/

/-- `S[sp] <- a; sp <- sp + 1`, for `sp` below 16. -/
def State.push (s : State) (a : Addr) (h : s.sp.toNat < 16) : State :=
  { s with stack := s.stack.set s.sp.toNat a, sp := s.sp + 1 }

/-! ## Timers and tones (45_timers_keys.md R196, 60_exceptions.md R222, R223) -/

/-- `emit(sig)`: append to the output list. -/
def State.emit (s : State) (sig : ToneSignal) : State := { s with tones := s.tones ++ [sig] }

/-- `setValue(T, v)` on the timer itself: activate and assign, for every v (45_timers_keys.md R196). -/
def setTimer (b : Byte) : Timer := { value := b, active := true }

/-- `setValue(delay, v)`: no signal. -/
def State.setDelay (s : State) (b : Byte) : State := { s with delay := setTimer b }

/-- `setValue(sound, v)`: emits TONE_START for every v. -/
def State.setSound (s : State) (b : Byte) : State := { s with sound := setTimer b }.emit .toneStart

/-- `max(value - 1, 0)` (60_exceptions.md R222). -/
def countDown (b : Byte) : Byte := BitVec.ofNat 8 (b.toNat - 1)

/-- One timer's tick (60_exceptions.md R222). -/
def Timer.tick (t : Timer) : Timer :=
  if t.active then { value := countDown t.value, active := decide (countDown t.value ≠ 0) } else t

/-- The tick of this timer deactivates it: where the sound timer emits TONE_STOP (60_exceptions.md R222). -/
def Timer.expires (t : Timer) : Bool := t.active && decide (countDown t.value = 0)

/-! ## Screen (44_display.md R170 to R174) -/

/-- `px[col][row]`. -/
def Screen.px (p : Screen) (col : Fin 64) (row : Fin 32) : Bool := p[row][col]

/-- `px[col][row] <- px[col][row] ^ 1`. -/
def Screen.flip (p : Screen) (col : Fin 64) (row : Fin 32) : Screen :=
  p.set row (p[row].set col (!p[row][col]))

/-- The pixel column of offset `j` from the start column `x0`: columns wrap per pixel (R173). -/
def spriteColumn (x0 j : Nat) : Fin 64 := Fin.ofNat 64 (x0 + j)

/-- One sprite bit: a set bit flips its pixel and reports an erasure; a 0 bit leaves it (R172, R174). The
pair holds the screen and `erased`. -/
def drawBit (x0 : Nat) (row : Fin 32) (b : Byte) (acc : Screen × Bool) (j : Nat) : Screen × Bool :=
  if b.getLsbD (7 - j) then
    (acc.1.flip (spriteColumn x0 j) row, acc.2 || acc.1.px (spriteColumn x0 j) row)
  else acc

/-- One sprite byte: bit `7 - j` is the pixel at column offset `j`, for j = 0..7 (R170, R172). -/
def drawByte (x0 : Nat) (row : Fin 32) (b : Byte) (acc : Screen × Bool) : Screen × Bool :=
  (List.range 8).foldl (drawBit x0 row b) acc

/-- The sprite's bytes from `row` down; a row past 31 is clipped, neither drawn nor counted (R172, R173). -/
def drawBytes (x0 : Nat) : Nat → List Byte → Screen × Bool → Screen × Bool
  | _, [], acc => acc
  | row, b :: bs, acc =>
    drawBytes x0 (row + 1) bs (if h : row < 32 then drawByte x0 ⟨row, h⟩ b acc else acc)

/-- The sprite `bs` XORed at `(x0, y0)`: the new screen and whether any set pixel was erased (R172). -/
def drawSprite (p : Screen) (x0 y0 : Nat) (bs : List Byte) : Screen × Bool := drawBytes x0 y0 bs (p, false)

end Sys2Proof.Machine
end

