-- ==== Sys2Proof/Machine/Operands.lean ====
section
/-! DEFINITION. The operands that are not a plain register or literal: the sampled key, the shift source, the indirect addresses. -/

namespace Sys2Proof.Machine

/-- The host's current-key value as a step samples it: an integer in 0..15 is a key, anything else is
none (10_state.md R41, 60_exceptions.md R216). -/
def sampleKey : Option Int → Option (Fin 16)
  | none => none
  | some k => if h : 0 ≤ k ∧ k ≤ 15 then some ⟨k.toNat, by omega⟩ else none

/-- `key`, the step's sampled key input (10_state.md R31). -/
def State.key (s : State) : Option (Fin 16) := sampleKey s.keyIn

/-- A key's value as a register holds it. -/
def keyByte (k : Fin 16) : Byte := BitVec.ofNat 8 k.val

/-- `key = some k and k = b`, all 8 bits compared (45_timers_keys.md R190; D14). -/
def State.keyIs (s : State) (b : Byte) : Bool :=
  match s.key with
  | none => false
  | some k => decide (keyByte k = b)

/-- The operand SHR and SHL read: V[y] or V[x], by SHIFT_SRC (42_alu.md R133, R135). -/
def State.shiftOperand (s : State) (x y : Nibble) : Byte :=
  match s.cfg.shiftSrc with
  | .vx => s.readReg x
  | .vy => s.readReg y

/-- `I` as an address, unmasked (20_memory.md R54). -/
def State.indexAddr (s : State) : Nat := s.idx.toNat

/-- The number of registers V0..Vx (43_index_memory.md R154, R155). -/
def regCount (x : Nibble) : Nat := x.toNat + 1

/-- V0..Vx in order (43_index_memory.md R154). -/
def State.regsThrough (s : State) (x : Nibble) : List Byte := s.v.toList.take (regCount x)

/-- `V[i] <- b[i]` for i = 0..x, the list giving the bytes; the other registers stay (43_index_memory.md R155). -/
def State.writeRegsThrough (s : State) (x : Nibble) (bs : List Byte) : State :=
  { s with v := Vector.ofFn fun i => if i.val < regCount x then bs.getD i.val (s.v[i]) else s.v[i] }

/-- The write of I that ends Fx55 and Fx65: I + x + 1 with LS_INDEX_INC, else none (43_index_memory.md R156). -/
def State.bumpIndex (s : State) (x : Nibble) : State :=
  if s.cfg.lsIndexInc then s.setIndex (s.idx + BitVec.ofNat 16 (regCount x)) else s

/-- The three decimal digits of a byte, most significant first (43_index_memory.md R153). -/
def bcdDigits (b : Byte) : List Byte :=
  [BitVec.ofNat 8 (b.toNat / 100), BitVec.ofNat 8 (b.toNat / 10 % 10), BitVec.ofNat 8 (b.toNat % 10)]

/-- The address of a digit's glyph: `(b & 0x0F) * 5` (43_index_memory.md R152). -/
def glyphAddr (b : Byte) : Word := BitVec.ofNat 16 (b.toNat % 16 * 5)

end Sys2Proof.Machine
end

