-- ==== Sys2Proof/Machine/Alu.lean ====
section
/-! DEFINITION. Register loads, arithmetic, logic and random (42_alu.md). Operands are read before any register is written (R120). -/

namespace Sys2Proof.Machine

/-- The end of an instruction with one destination: `V[x] <- r`, then the default advance. -/
def State.finish (s : State) (x : Nibble) (r : Byte) : State := (s.writeReg x r).advance

/-- The end of a flag-setting instruction: the result to V[x] first, the flag to VF second, always, then the
default advance (42_alu.md R120). -/
def State.finishFlag (s : State) (x : Nibble) (r : Byte) (flag : Bool) : State :=
  ((s.writeReg x r).writeFlag (flagByte flag)).advance

/-- LD Vx, kk (42_alu.md R121). -/
def execLdImm (x : Nibble) (kk : Byte) (s : State) : Outcome := .next (s.finish x kk)

/-- ADD Vx, kk (42_alu.md R122): no flag. -/
def execAddImm (x : Nibble) (kk : Byte) (s : State) : Outcome := .next (s.finish x (addResult (s.readReg x) kk))

/-- LD Vx, Vy (42_alu.md R123). -/
def execLdReg (x y : Nibble) (s : State) : Outcome := .next (s.finish x (s.readReg y))

/-- AND Vx, Vy (42_alu.md R124): no flag. -/
def execAndReg (x y : Nibble) (s : State) : Outcome := .next (s.finish x (s.readReg x &&& s.readReg y))

/-- SUB Vx, Vy (42_alu.md R126). -/
def execSub (x y : Nibble) (s : State) : Outcome :=
  .next (s.finishFlag x (subResult (s.readReg x) (s.readReg y)) (notBorrow (s.readReg x) (s.readReg y)))

/-- OR Vx, Vy (42_alu.md R130): no flag. -/
def execOrReg (x y : Nibble) (s : State) : Outcome := .next (s.finish x (s.readReg x ||| s.readReg y))

/-- XOR Vx, Vy (42_alu.md R131): no flag. -/
def execXorReg (x y : Nibble) (s : State) : Outcome := .next (s.finish x (s.readReg x ^^^ s.readReg y))

/-- ADD Vx, Vy (42_alu.md R132). -/
def execAddReg (x y : Nibble) (s : State) : Outcome :=
  .next (s.finishFlag x (addResult (s.readReg x) (s.readReg y)) (carry (s.readReg x) (s.readReg y)))

/-- SHR Vx, Vy (42_alu.md R133). -/
def execShr (x y : Nibble) (s : State) : Outcome :=
  .next (s.finishFlag x (shrResult (s.shiftOperand x y)) (shrOut (s.shiftOperand x y)))

/-- SUBN Vx, Vy (42_alu.md R134). -/
def execSubn (x y : Nibble) (s : State) : Outcome :=
  .next (s.finishFlag x (subResult (s.readReg y) (s.readReg x)) (notBorrow (s.readReg y) (s.readReg x)))

/-- SHL Vx, Vy (42_alu.md R135). -/
def execShl (x y : Nibble) (s : State) : Outcome :=
  .next (s.finishFlag x (shlResult (s.shiftOperand x y)) (shlOut (s.shiftOperand x y)))

/-- RND Vx, kk (42_alu.md R136): the random byte is a free value, a new one at every draw (log 7). -/
def execRnd (x : Nibble) (kk : Byte) (s : State) : Outcome :=
  .next ({ s with draws := s.draws + 1 }.finish x (Config.freeRnd s.draws &&& kk))

end Sys2Proof.Machine
end

