-- ==== Sys2Proof/Machine/Control.lean ====
section
/-! DEFINITION. Control transfer, skips and halt (41_control.md). -/

namespace Sys2Proof.Machine

/-- RET (41_control.md R100): pop, then the default advance. With `sp` above 16 there is no such entry, and the
machine stops (log 12). -/
def execRet (s : State) : Outcome :=
  if s.sp = 0 then s.settle .ret (.error ⟨.stackUnderflow, s.sp.toNat⟩)
  else if h : s.sp.toNat - 1 < 16 then
    s.settle .ret (.ok { s with sp := s.sp - 1, pc := (s.stack[s.sp.toNat - 1]).zeroExtend 16 + 2 })
  else .fault .stackPointerBeyondStack

/-- JP nnn (41_control.md R101): no default advance. -/
def execJp (nnn : Addr) (s : State) : Outcome := .next (s.jump nnn)

/-- CALL nnn (41_control.md R102): push the address of this CALL, no default advance. With `sp` above 16 there is
no such entry, and the machine stops (log 12). -/
def execCall (nnn : Addr) (s : State) : Outcome :=
  if s.sp = 16 then s.settle (.call nnn) (.error ⟨.stackOverflow, s.sp.toNat⟩)
  else if h : s.sp.toNat < 16 then s.settle (.call nnn) (.ok ((s.push (s.pc.setWidth 12) h).jump nnn))
  else .fault .stackPointerBeyondStack

/-- SE Vx, kk (41_control.md R103). -/
def execSeImm (x : Nibble) (kk : Byte) (s : State) : Outcome := .next (s.skipIf (decide (s.readReg x = kk)))

/-- SNE Vx, kk (41_control.md R104). -/
def execSneImm (x : Nibble) (kk : Byte) (s : State) : Outcome := .next (s.skipIf (decide (s.readReg x ≠ kk)))

/-- SE Vx, Vy (41_control.md R105). -/
def execSeReg (x y : Nibble) (s : State) : Outcome := .next (s.skipIf (decide (s.readReg x = s.readReg y)))

/-- SNE Vx, Vy (41_control.md R106). -/
def execSneReg (x y : Nibble) (s : State) : Outcome := .next (s.skipIf (decide (s.readReg x ≠ s.readReg y)))

/-- HALT (41_control.md R107): the default advance, then Halted. -/
def execHalt (s : State) : Outcome := .next { s.advance with status := .halted }

end Sys2Proof.Machine
end

