-- ==== Sys2Proof/Machine/Display.lean ====
section
/-! DEFINITION. The display instructions (44_display.md). -/

namespace Sys2Proof.Machine

/-- CLS (44_display.md R171). -/
def execCls (s : State) : Outcome := .next { s with screen := Screen.clear, dirty := true }.advance

/-- The sprite `bs` drawn at the coordinates in V[x] and V[y], read before VF is written: the start wraps, the
screen and `dirty` are written, then VF the collision flag (44_display.md R172, R173, R176). -/
def State.drawAt (s : State) (x y : Nibble) (bs : List Byte) : State :=
  let drawn := drawSprite s.screen ((s.readReg x).toNat % 64) ((s.readReg y).toNat % 32) bs
  ({ s with screen := drawn.1, dirty := true }.writeFlag (flagByte drawn.2)).advance

/-- DRW Vx, Vy, n (44_display.md R172). -/
def execDrw (x y n : Nibble) (s : State) : Outcome :=
  s.settle (.drw x y n) <|
    match s.loadBytes s.indexAddr n.toNat with
    | .error r => .error r
    | .ok bs => .ok (s.drawAt x y bs)

end Sys2Proof.Machine
end

