-- ==== Sys2Proof/Machine/IndexMemory.lean ====
section
/-! DEFINITION. The index register and the memory instructions (43_index_memory.md). -/

namespace Sys2Proof.Machine

/-- LD I, nnn (43_index_memory.md R150). -/
def execLdI (nnn : Addr) (s : State) : Outcome := .next (s.setIndex (nnn.zeroExtend 16)).advance

/-- ADD I, Vx (43_index_memory.md R151): the exact sum, not masked; VF is not written. -/
def execAddIVx (x : Nibble) (s : State) : Outcome :=
  s.settle (.addIVx x) <|
    if 0xFFFF < s.idx.toNat + (s.readReg x).toNat then .error ⟨.indexOverflow, s.idx.toNat + (s.readReg x).toNat⟩
    else .ok (s.setIndex (BitVec.ofNat 16 (s.idx.toNat + (s.readReg x).toNat))).advance

/-- LD F, Vx (43_index_memory.md R152). -/
def execLdFVx (x : Nibble) (s : State) : Outcome := .next (s.setIndex (glyphAddr (s.readReg x))).advance

/-- LD B, Vx (43_index_memory.md R153). -/
def execLdBVx (x : Nibble) (s : State) : Outcome :=
  s.settle (.ldBVx x) <|
    match s.storeBytes s.indexAddr (bcdDigits (s.readReg x)) with
    | .error r => .error r
    | .ok t => .ok t.advance

/-- LD [I], Vx (43_index_memory.md R154). -/
def execLdMemVx (x : Nibble) (s : State) : Outcome :=
  s.settle (.ldMemVx x) <|
    match s.storeBytes s.indexAddr (s.regsThrough x) with
    | .error r => .error r
    | .ok t => .ok (t.bumpIndex x).advance

/-- LD Vx, [I] (43_index_memory.md R155). -/
def execLdVxMem (x : Nibble) (s : State) : Outcome :=
  s.settle (.ldVxMem x) <|
    match s.loadBytes s.indexAddr (regCount x) with
    | .error r => .error r
    | .ok bs => .ok ((s.writeRegsThrough x bs).bumpIndex x).advance

end Sys2Proof.Machine
end

