-- ==== Sys2Proof/Machine/KeysTimers.lean ====
section
/-! DEFINITION. The key and timer instructions (45_timers_keys.md). -/

namespace Sys2Proof.Machine

/-- SKP Vx (45_timers_keys.md R190). -/
def execSkp (x : Nibble) (s : State) : Outcome := .next (s.skipIf (s.keyIs (s.readReg x)))

/-- SKNP Vx (45_timers_keys.md R191). -/
def execSknp (x : Nibble) (s : State) : Outcome := .next (s.skipIf (!s.keyIs (s.readReg x)))

/-- LD Vx, DT (45_timers_keys.md R192). -/
def execLdVxDt (x : Nibble) (s : State) : Outcome := .next (s.writeReg x s.delay.value).advance

/-- LD Vx, K (45_timers_keys.md R193): the key is not read here. -/
def execLdVxK (x : Nibble) (s : State) : Outcome := .next { s with status := .waiting, waitX := x }.advance

/-- LD DT, Vx (45_timers_keys.md R197). -/
def execLdDtVx (x : Nibble) (s : State) : Outcome := .next (s.setDelay (s.readReg x)).advance

/-- LD ST, Vx (45_timers_keys.md R198): emits TONE_START. -/
def execLdStVx (x : Nibble) (s : State) : Outcome := .next (s.setSound (s.readReg x)).advance

end Sys2Proof.Machine
end

