-- ==== Sys2Proof/Machine/Cycle.lean ====
section
/-! DEFINITION. The transactions: the step cycle (30_encoding.md R90), and what the host does between steps (tick, load, render, teardown). -/

namespace Sys2Proof.Machine

/-! ## The step (30_encoding.md R90) -/

/-- What a step returns (10_state.md R41). -/
inductive StepOutcome where
  | continue
  | halt
  | fault
  deriving DecidableEq, Repr

/-- The outcome a step returned, read from the state it left: Halt in Halted, Fault in Faulted, else Continue
(30_encoding.md R90; log 11). -/
def State.outcome (s : State) : StepOutcome :=
  match s.status with
  | .running => .continue
  | .waiting => .continue
  | .halted => .halt
  | .faulted => .fault

/-- Phase A's commit: `V[wait_x] <- k; status <- Running` (30_encoding.md R90, 45_timers_keys.md R195). -/
def State.commitKey (s : State) (k : Fin 16) : State := { s.writeReg s.waitX (keyByte k) with status := .running }

/-- The model's record that a step has begun a fetch (log 13). -/
def State.begin (s : State) : State := { s with started := true }

/-- Decode the fetched opcode and execute it, or take DECODE (30_encoding.md R90, R92). -/
def decodeExecute (op : Word) (s : State) : Outcome :=
  match decode s.cfg op with
  | none => .next (s.enterFault .decode (some op))
  | some i => exec i s

/-- Phase B: fetch, decode, execute; FETCH_RANGE first (30_encoding.md R90, R91, 60_exceptions.md R214). -/
def fetchExecute (s : State) : Outcome :=
  match s.fetch with
  | none => .next (s.begin.enterFault .fetchRange none)
  | some op => decodeExecute op s.begin

/-- One step of the core (30_encoding.md R90): frozen in Halted and Faulted, nothing while waiting with no key,
phase A and then phase B in the same step when a key is there. -/
def cpuStep (s : State) : Outcome :=
  match s.status with
  | .halted => .next s
  | .faulted => .next s
  | .waiting =>
    match s.key with
    | none => .next s
    | some k => fetchExecute (s.commitKey k)
  | .running => fetchExecute s

/-! ## The host's transactions -/

/-- A tick of both timers, delay then sound; nothing in Halted and Faulted (60_exceptions.md R221 to R224). -/
def State.tick (s : State) : State :=
  match s.status with
  | .halted => s
  | .faulted => s
  | .running => tickBoth s
  | .waiting => tickBoth s
where
  /-- Both timers count down, and the sound timer's expiry emits TONE_STOP (60_exceptions.md R222). -/
  tickBoth (s : State) : State :=
    { s with
      delay := s.delay.tick
      sound := s.sound.tick
      tones := if s.sound.expires then s.tones ++ [.toneStop] else s.tones }

/-- The most bytes a program may have: 4096 − 512 (00_scope.md R9). -/
def progMax : Nat := 3584

/-- The program load: refused over 3584 bytes and after the first step, else the bytes at 0x200 and
`pc = 0x200` (70_reset_and_hazards.md R243). -/
def loadProgram (bytes : List Byte) (s : State) : Outcome :=
  if s.started then .refused .loadAfterStart
  else if progMax < bytes.length then .refused .loadTooLong
  else .next { s.putBytes 0x200 bytes with pc := 0x200 }

/-- The render read: the screen is copied and `dirty` cleared if `dirty` is set (44_display.md R178). -/
def State.render (s : State) : State :=
  if s.dirty then { s with frame := some s.screen, dirty := false } else s

/-- What the render read returns, from the state it starts in: true when it copies (44_display.md R178). -/
def State.renderReturns (s : State) : Bool := s.dirty

/-- Teardown: exactly one STOP_FINAL, and no other change (10_state.md R46). -/
def State.teardown (s : State) : State := { s.emit .stopFinal with tornDown := true }

/-- One transaction of the host (10_state.md R41 to R46). -/
def transact (op : HostOp) (s : State) : Outcome :=
  match op with
  | .step k => cpuStep { s with keyIn := k }
  | .tick => .next s.tick
  | .load bytes => loadProgram bytes s
  | .render => .next s.render
  | .teardown => .next s.teardown

/-- The next transaction: the oldest the host has queued, or a step with the current key when it has queued none
(log 9). Nothing runs after teardown (10_state.md R46) or in an illegal configuration (30_encoding.md R86). -/
def nextTransaction (s : State) : Outcome :=
  if s.tornDown then .refused .afterTeardown
  else if s.cfg.legal = false then .refused .illegalConfig
  else match s.pending with
    | [] => cpuStep s
    | op :: rest => transact op { s with pending := rest }

/-! ## Placing an instruction -/

/-- The configuration an opcode is run in: the one there is when it recognizes the opcode, else the same one with
the optional rows and the halt word, when those recognize it (log 17). -/
def Config.enabling (c : Config) (op : Word) : Config :=
  if c.legal && (decode c op).isSome then c
  else if (decode Config.everyRow op).isSome then
    { c with fullAlu := true, haltOpcode := Config.everyRow.haltOpcode }
  else c

/-- The state with `op` stored where the next step fetches, that step being a plain running one (log 17). -/
def State.placeOpcode (s : State) (op : Word) : State :=
  let pc : Word := if 0xFFE < s.pc.toNat then 0x200 else s.pc
  let t := { s with
    pc := pc, status := .running, pending := [], tornDown := false
    cfg := Sys2Proof.Machine.Config.enabling s.cfg op }
  (t.putByte pc.toNat (wordFirstByte op)).putByte (pc.toNat + 1) (wordSecondByte op)

end Sys2Proof.Machine
end

