-- ==== Sys2Proof/Machine/Step.lean ====
section
/-! DEFINITION. The machine's one step, and an opcode placed where it fetches. -/

namespace Sys2Proof.Machine

/-- One step of the machine: its next transaction (Machine/Cycle.lean). -/
def step (s : State) : Host.Outcome State Fault Refusal := nextTransaction s

/-- The state whose very next step fetches and runs the opcode whose bits are `w` (log 17). -/
def State.withFetchWord (s : State) (nbits w : Nat) : State := s.placeOpcode (tableWord nbits w)

end Sys2Proof.Machine
end

