-- ==== Sys2Proof/Safety.lean ====
section
/-! DEFINITION. What claims about runs use: the invariant of the machine, and a safe run. -/

namespace Sys2Proof.Machine

/-- The tone is on from a TONE_START until the next TONE_STOP or STOP_FINAL (60_exceptions.md R223). -/
def toneOn (tones : List ToneSignal) : Bool := tones.getLast? = some .toneStart

/-- An inactive timer has value 0 (10_state.md R27). -/
def Timer.ok (t : Timer) : Prop := t.active = false → t.value = 0

/-- The invariant of the machine: what holds in every state a run reaches. -/
structure State.Inv (s : State) : Prop where
  /-- HALT_OPCODE is no other row's word (30_encoding.md R86). -/
  legal : s.cfg.legal = true
  /-- Memory keeps its canonical form and lists addresses 0x000..0xFFF only (10_state.md R32). -/
  memory : Memory.wf s.cfg.initialByte s.mem
  /-- The stack pointer counts 0..16 entries (10_state.md R25). -/
  stackPointer : s.sp.toNat ≤ 16
  /-- An entry in use is the address of a CALL that was fetched (41_control.md R100, R102). -/
  returnAddresses : ∀ (j : Nat) (h : j < 16), j < s.sp.toNat → (s.stack[j]).toNat ≤ 0xFFE
  /-- 10_state.md R27. -/
  delayTimer : s.delay.ok
  /-- 10_state.md R27. -/
  soundTimer : s.sound.ok
  /-- The pc is at most two past the memory's last address, plus the skip (10_state.md R23). -/
  programCounter : s.pc.toNat ≤ 0x1002
  /-- The fault record is there exactly in Faulted (10_state.md R29, R30). -/
  faultRecord : s.status = .faulted ↔ s.fault.isSome = true
  /-- Until teardown the tone is on exactly while the sound timer is active (60_exceptions.md R223). -/
  tone : s.tornDown = false → toneOn s.tones = s.sound.active
  /-- Only a step that fetched leaves Running (30_encoding.md R90). -/
  begun : s.status ≠ .running → s.started = true

/-- The host's next transaction is one the spec allows: no load after the first step or of more than 3584 bytes,
nothing after teardown (10_state.md R43, R46, R47; 70_reset_and_hazards.md R243). -/
def State.hostLegal (s : State) : Prop :=
  s.tornDown = false ∧
  ∀ (bytes : List Byte) (rest : List HostOp), s.pending = .load bytes :: rest →
    s.started = false ∧ bytes.length ≤ progMax

/-- The next transaction of `s` is a step of the core, and `u` is the state that step starts from: `s` itself, or
`s` with the queued step's key taken (10_state.md R41, R47; log 9). -/
def State.NextIsStep (s u : State) : Prop :=
  s.tornDown = false ∧ s.cfg.legal = true ∧
  ((s.pending = [] ∧ u = s) ∨
    ∃ k rest, s.pending = .step k :: rest ∧ u = { s with pending := rest, keyIn := k })

/-! ## Frames -/

/-- Every byte of memory reads as before. -/
def State.SameMemory (s t : State) : Prop := ∀ a, t.byteAt a = s.byteAt a

/-- Every register reads as before. -/
def State.SameRegs (s t : State) : Prop := ∀ r, t.readReg r = s.readReg r

/-- Nothing but the registers and the pc changed: no byte of memory, no other part of the state. -/
def State.OnlyRegsPc (s t : State) : Prop :=
  s.SameMemory t ∧ t = { s with v := t.v, pc := t.pc }

/-- Nothing but the pc changed: no register, no byte of memory, no other part of the state. -/
def State.OnlyPc (s t : State) : Prop :=
  s.SameRegs t ∧ s.SameMemory t ∧ t = { s with pc := t.pc }

/-- Nothing but I and the pc changed. -/
def State.OnlyIndexPc (s t : State) : Prop :=
  s.SameRegs t ∧ s.SameMemory t ∧ t = { s with idx := t.idx, pc := t.pc }

/-- A run of `k` steps from `s` never ends in `.fault`. -/
def State.SafeRun (s : State) (k : Nat) : Prop := ∀ r, Sys2Proof.core.run k s ≠ .fault r

end Sys2Proof.Machine
end

