-- ==== Sys2Proof/Certificates/Slice0/Obligations.lean ====
section
/-! DEFINITION. The statements for the provers. -/

open Sys2Proof Sys2Proof.Machine

/-! ## Encoding (30_encoding.md) -/

/-- A few words written out from 30_encoding.md R80 and 95_test_vectors.md 2.1 decode as they say, with FULL_ALU
off and on (D1); that 0xFFFF is HALT_OPCODE is 95_test_vectors.md C14's choice (D3, log 17). -/
def Obligations.SpecWordsDecode : Prop :=
  decode Config.reference 0x00E0#16 = some .cls ∧
  decode Config.reference 0x1ABC#16 = some (.jp 0xABC#12) ∧
  decode Config.reference 0x3A42#16 = some (.seImm 0xA#4 0x42#8) ∧
  decode Config.reference 0x8125#16 = some (.sub 0x1#4 0x2#4) ∧
  decode Config.reference 0x8124#16 = none ∧
  decode Config.everyRow 0x8124#16 = some (.addReg 0x1#4 0x2#4) ∧
  decode Config.reference 0xD015#16 = some (.drw 0x0#4 0x1#4 0x5#4) ∧
  decode Config.reference 0xF129#16 = some (.ldFVx 0x1#4) ∧
  decode Config.reference 0xE1A1#16 = some (.sknp 0x1#4) ∧
  decode Config.reference 0xB123#16 = none ∧
  decode Config.reference 0x0123#16 = none ∧
  decode Config.reference 0xFFFF#16 = none ∧
  decode Config.everyRow 0xFFFF#16 = some .halt

/-- In a legal configuration, decoding the opcode of a well-formed instruction gives it back, whatever its operands
(30_encoding.md R72, R73, R80, R86). -/
def Obligations.DecodeOfEncodeGivesTheInstruction : Prop :=
  ∀ (c : Config) (i : Instr), c.legal = true → i.wellFormed c = true →
    decode c (encode c i) = some i ∧
    ∀ rest, decodeBytes c (encodeBytes c i ++ rest) = .ok (i, rest)

/-- An opcode that decodes is the opcode of the instruction it decodes to, and that instruction exists in the
configuration: no bit of an opcode is dropped (30_encoding.md R73, R80). -/
def Obligations.EncodeOfDecodeGivesTheOpcode : Prop :=
  ∀ (c : Config) (op : Word) (i : Instr), decode c op = some i →
    encode c i = op ∧ i.wellFormed c = true

/-- 30_encoding.md R81: the decoder answers a kind exactly where the table has a row of that kind that the opcode
selects. Which rows a configuration has is the spec's own choice (92_eei_decisions.md D1, D3; logs 23, 33). -/
def Obligations.DecoderAnswersTheSelectedRow : Prop :=
  ∀ (c : Config) (op : Word) (k : Kind), c.legal = true →
    ((∃ i, decode c op = some i ∧ i.kind = k) ↔
      ∃ r ∈ c.opcodeTable, op &&& r.mask = r.value ∧ r.kind = k)

/-- 30_encoding.md R87: no opcode selects two rows of the table, and the decoder's result is a function of the
opcode, FULL_ALU and HALT_OPCODE alone. -/
def Obligations.TableRowsAreDisjoint : Prop :=
  (∀ (c : Config) (op : Word), c.legal = true →
    (c.opcodeTable.filter fun r => decide (op &&& r.mask = r.value)).length ≤ 1) ∧
  (∀ (c c' : Config) (op : Word), c.fullAlu = c'.fullAlu → c.haltOpcode = c'.haltOpcode →
    decode c op = decode c' op)

/-- The spaces of 30_encoding.md R85, with FULL_ALU off and on, as ranges and remainders of the opcode's number;
with HALT_OPCODE set, that one word is taken out of them. -/
def Obligations.NotRecognizedSpaces : Prop :=
  ∀ (c : Config) (op : Word),
    (decode c op = none ↔
      c.haltOpcode ≠ some op ∧
      ((op.toNat < 0x1000 ∧ op.toNat ≠ 0x00E0 ∧ op.toNat ≠ 0x00EE) ∨
       (0x5000 ≤ op.toNat ∧ op.toNat < 0x6000 ∧ op.toNat % 16 ≠ 0) ∨
       (0x9000 ≤ op.toNat ∧ op.toNat < 0xA000 ∧ op.toNat % 16 ≠ 0) ∨
       (0x8000 ≤ op.toNat ∧ op.toNat < 0x9000 ∧
         (op.toNat % 16 ∈ [0x8, 0x9, 0xA, 0xB, 0xC, 0xD, 0xF] ∨
          c.fullAlu = false ∧ op.toNat % 16 ∈ [0x1, 0x3, 0x4, 0x6, 0x7, 0xE])) ∨
       (0xB000 ≤ op.toNat ∧ op.toNat < 0xC000) ∨
       (0xE000 ≤ op.toNat ∧ op.toNat < 0xF000 ∧ op.toNat % 256 ∉ [0x9E, 0xA1]) ∨
       (0xF000 ≤ op.toNat ∧
         op.toNat % 256 ∉ [0x07, 0x0A, 0x15, 0x18, 0x1E, 0x29, 0x33, 0x55, 0x65])))

/-- 30_encoding.md R95 with the slices of R73: every output of the decoder, for every word. -/
def Obligations.DecoderOutputsForEveryWord : Prop :=
  ∀ (c : Config) (op : Word),
    (decode c op = none → (decoderOut c op).valid = false ∧ (decoderOut c op).kind = .NONE) ∧
    (∀ i, decode c op = some i → (decoderOut c op).valid = true ∧ (decoderOut c op).kind = i.kind) ∧
    (decoderOut c op).x.toNat = op.toNat / 256 % 16 ∧
    (decoderOut c op).y.toNat = op.toNat / 16 % 16 ∧
    (decoderOut c op).n.toNat = op.toNat % 16 ∧
    (decoderOut c op).kk.toNat = op.toNat % 256 ∧
    (decoderOut c op).nnn.toNat = op.toNat % 4096

/-! ## The step (30_encoding.md R90 to R95) -/

/-- 30_encoding.md R90, 20_memory.md R51: a running step whose two bytes at pc, big-endian, decode to `i` is `exec i` at
that state; around it the step only takes a queued key and records that a step has begun (the model's own
field, log 13). -/
def Obligations.StepRunsTheDecodedInstruction : Prop :=
  ∀ (s u : State) (i : Instr), s.NextIsStep u → u.status = .running → u.pc.toNat ≤ 0xFFE →
    decode u.cfg (u.byteAt u.pc.toNat ++ u.byteAt (u.pc.toNat + 1) : BitVec 16) = some i →
    step s = exec i { u with started := true }

/-- 30_encoding.md R91: above 0xFFE the step takes FETCH_RANGE with no opcode and changes no other state (but the
model's own `started`). The fault is the spec's own choice (92_eei_decisions.md D7, log 21). -/
def Obligations.FetchBeyondMemoryFaults : Prop :=
  ∀ (s u : State), s.NextIsStep u → u.status = .running → 0xFFE < u.pc.toNat →
    step s = .next { u with
      started := true, status := .faulted, fault := some ⟨.fetchRange, none, u.pc⟩ }

/-- 30_encoding.md R92: a not-recognized opcode takes DECODE with the opcode and the pc, and has no other effect. -/
def Obligations.UnrecognizedOpcodeFaults : Prop :=
  ∀ (s u : State) (op : Word), s.NextIsStep u → u.status = .running → u.pc.toNat ≤ 0xFFE →
    op = (u.byteAt u.pc.toNat ++ u.byteAt (u.pc.toNat + 1) : BitVec 16) → decode u.cfg op = none →
    step s = .next { u with
      started := true, status := .faulted, fault := some ⟨.decode, some op, u.pc⟩ }

/-- 42_alu.md R127: without FULL_ALU the words 8xy1, 8xy3, 8xy4, 8xy6, 8xy7 and 8xyE take DECODE before any effect.
That these rows may be absent is a parameter of the spec (92_eei_decisions.md D1, log 23). -/
def Obligations.OptionalRowsFaultWithoutFullAlu : Prop :=
  ∀ (s u : State) (op : Word), s.NextIsStep u → u.status = .running → u.pc.toNat ≤ 0xFFE →
    op = (u.byteAt u.pc.toNat ++ u.byteAt (u.pc.toNat + 1) : BitVec 16) →
    0x8000 ≤ op.toNat → op.toNat < 0x9000 → op.toNat % 16 ∈ [0x1, 0x3, 0x4, 0x6, 0x7, 0xE] →
    u.cfg.fullAlu = false → u.cfg.haltOpcode ≠ some op →
    step s = .next { u with
      started := true, status := .faulted, fault := some ⟨.decode, some op, u.pc⟩ }

/-- 45_timers_keys.md R194: a waiting step with no key changes nothing. That a host value outside 0..15 is no key is not R194's:
it is 10_state.md R41, the spec's own choice (92_eei_decisions.md D24, log 27). -/
def Obligations.WaitingStepWithoutKeyDoesNothing : Prop :=
  ∀ (s u : State), s.NextIsStep u → u.status = .waiting →
    (∀ k, u.keyIn = some k → k < 0 ∨ 15 < k) →
    step s = .next u ∧ u.outcome = .continue

/-- 45_timers_keys.md R195: a waiting step with key k writes it to the waiting register, becomes Running, and in the
same step does what a running step from there does. The spec's own choice (92_eei_decisions.md D13, log 26). -/
def Obligations.WaitingStepWithKeyCommitsAndRuns : Prop :=
  ∀ (s u : State) (k : Nat), s.NextIsStep u → u.status = .waiting → u.keyIn = some (k : Int) → k ≤ 15 →
    ∃ w : State, w = { u with v := w.v, status := .running } ∧
      (∀ r, w.readReg r = if r = u.waitX then BitVec.ofNat 8 k else u.readReg r) ∧
      step s = cpuStep w

/-- 60_exceptions.md R224: in Halted and Faulted a step returns Halt or Fault with no change, so the fault record never
changes, and a tick does nothing. The spec's own choice (92_eei_decisions.md D20, log 33). -/
def Obligations.FrozenStatesStayAsTheyAre : Prop :=
  ∀ (s u : State), s.NextIsStep u → (u.status = .halted ∨ u.status = .faulted) →
    step s = .next u ∧ u.tick = u ∧
    (u.status = .halted → u.outcome = .halt) ∧ (u.status = .faulted → u.outcome = .fault)

/-! ## Faults (60_exceptions.md R210 to R214) -/

/-- 60_exceptions.md R211: an instruction that faults leaves exactly the state before it, plus the status and the
record, whose opcode is the instruction's own word and whose address is its pc. The spec's own choice (92_eei_decisions.md D19, logs
16, 31). -/
def Obligations.InstructionFaultsArePrecise : Prop :=
  ∀ (i : Instr) (s t : State), s.status ≠ .faulted → exec i s = .next t → t.status = .faulted →
    ∃ kind, t = { s with status := .faulted, fault := some ⟨kind, some (encode s.cfg i), s.pc⟩ }

/-- 60_exceptions.md R212: the kinds an instruction can raise, and exactly when. All but the two stack faults are the spec's
own choice (92_eei_decisions.md D5, D8, D9; logs 21, 34). -/
def Obligations.InstructionFaultsExactlyWhen : Prop :=
  ∀ (i : Instr) (s t : State), s.status ≠ .faulted → exec i s = .next t →
    ∀ kind, (t.status = .faulted ∧ (t.fault.map FaultRecord.kind) = some kind) ↔
      (i = .ret ∧ kind = .stackUnderflow ∧ s.sp.toNat = 0) ∨
      (∃ nnn, i = .call nnn ∧ kind = .stackOverflow ∧ s.sp.toNat = 16) ∨
      (∃ x, i = .addIVx x ∧ kind = .indexOverflow ∧ 0xFFFF < s.idx.toNat + (s.readReg x).toNat) ∨
      (∃ x y n, i = .drw x y n ∧ kind = .memRange ∧ 1 ≤ n.toNat ∧ 0xFFF < s.idx.toNat + (n.toNat - 1)) ∨
      (∃ x, i = .ldBVx x ∧ kind = .memRange ∧ 0xFFF < s.idx.toNat + 2) ∨
      (∃ x, (i = .ldMemVx x ∨ i = .ldVxMem x) ∧ kind = .memRange ∧ 0xFFF < s.idx.toNat + x.toNat) ∨
      (∃ x, (i = .ldBVx x ∨ i = .ldMemVx x) ∧ kind = .fontWrite ∧
        s.cfg.fontWritable = false ∧ s.idx.toNat ≤ 0x04F)

/-- 60_exceptions.md R211, R214: a running step that ends Faulted recorded the opcode it fetched (none for
FETCH_RANGE) and its pc, with the first kind that applies, and changed nothing else. The record and the priority are the spec's own
choice (92_eei_decisions.md D19, D29; logs 31, 37). -/
def Obligations.StepFaultRecordsWhatItFetched : Prop :=
  ∀ (s u t : State) (op : Word), s.NextIsStep u → u.status = .running → step s = .next t →
    t.status = .faulted →
    op = (u.byteAt u.pc.toNat ++ u.byteAt (u.pc.toNat + 1) : BitVec 16) →
    ∃ rec, t = { u with started := true, status := .faulted, fault := some rec } ∧ rec.addr = u.pc ∧
      rec.opcode = (if 0xFFE < u.pc.toNat then none else some op) ∧
      (rec.kind = .fetchRange ↔ 0xFFE < u.pc.toNat) ∧
      (rec.kind = .decode ↔ u.pc.toNat ≤ 0xFFE ∧ decode u.cfg op = none)

/-! ## Loads, arithmetic, logic (42_alu.md) -/

/-- 42_alu.md R121: LD Vx, kk. -/
def Obligations.LdImmLoadsTheLiteral : Prop :=
  ∀ (x : Nibble) (kk : Byte) (s : State),
    encode s.cfg (.ldImm x kk) = 0x6#4 ++ x ++ kk ∧
    ∃ t, exec (.ldImm x kk) s = .next t ∧
      (∀ r, t.readReg r = if r = x then kk else s.readReg r) ∧
      t.pc = s.pc + 2 ∧ s.OnlyRegsPc t

/-- 42_alu.md R122: ADD Vx, kk wraps modulo 256 and writes no flag. -/
def Obligations.AddImmWrapsWithoutFlag : Prop :=
  ∀ (x : Nibble) (kk : Byte) (s : State),
    encode s.cfg (.addImm x kk) = 0x7#4 ++ x ++ kk ∧
    ∃ t, exec (.addImm x kk) s = .next t ∧
      (t.readReg x).toNat = ((s.readReg x).toNat + kk.toNat) % 256 ∧
      (∀ r, r ≠ x → t.readReg r = s.readReg r) ∧
      t.pc = s.pc + 2 ∧ s.OnlyRegsPc t

/-- 42_alu.md R123: LD Vx, Vy. -/
def Obligations.LdRegCopiesTheRegister : Prop :=
  ∀ (x y : Nibble) (s : State),
    encode s.cfg (.ldReg x y) = 0x8#4 ++ x ++ y ++ 0x0#4 ∧
    ∃ t, exec (.ldReg x y) s = .next t ∧
      (∀ r, t.readReg r = if r = x then s.readReg y else s.readReg r) ∧
      t.pc = s.pc + 2 ∧ s.OnlyRegsPc t

/-- 42_alu.md R124, R130 and R131: AND, OR and XOR write V[x] only. That they write no flag is the spec's own choice
(92_eei_decisions.md D12); what OR and XOR do it takes from general knowledge, and their rows exist only with FULL_ALU
(D1, log 23). -/
def Obligations.LogicalOpsWriteOnlyVx : Prop :=
  ∀ (x y : Nibble) (s : State),
    encode s.cfg (.andReg x y) = 0x8#4 ++ x ++ y ++ 0x2#4 ∧
    encode s.cfg (.orReg x y) = 0x8#4 ++ x ++ y ++ 0x1#4 ∧
    encode s.cfg (.xorReg x y) = 0x8#4 ++ x ++ y ++ 0x3#4 ∧
    (∃ t, exec (.andReg x y) s = .next t ∧
      (∀ r, t.readReg r = if r = x then s.readReg x &&& s.readReg y else s.readReg r) ∧
      t.pc = s.pc + 2 ∧ s.OnlyRegsPc t) ∧
    (∃ t, exec (.orReg x y) s = .next t ∧
      (∀ r, t.readReg r = if r = x then s.readReg x ||| s.readReg y else s.readReg r) ∧
      t.pc = s.pc + 2 ∧ s.OnlyRegsPc t) ∧
    (∃ t, exec (.xorReg x y) s = .next t ∧
      (∀ r, t.readReg r = if r = x then s.readReg x ^^^ s.readReg y else s.readReg r) ∧
      t.pc = s.pc + 2 ∧ s.OnlyRegsPc t)

/-- 42_alu.md R126: SUB Vx, Vy; the not-borrow flag is the last value in VF, also when VF is the destination or an
operand. That the operands are read first and the flag written last is the spec's own choice (92_eei_decisions.md D11,
log 24). -/
def Obligations.SubSetsNotBorrow : Prop :=
  ∀ (x y : Nibble) (s : State),
    encode s.cfg (.sub x y) = 0x8#4 ++ x ++ y ++ 0x5#4 ∧
    ∃ t, exec (.sub x y) s = .next t ∧
      (x ≠ vF → ((t.readReg x).toNat : Int) = ((s.readReg x).toNat - (s.readReg y).toNat : Int) % 256) ∧
      (t.readReg vF).toNat = (if (s.readReg y).toNat ≤ (s.readReg x).toNat then 1 else 0) ∧
      (∀ r, r ≠ x → r ≠ vF → t.readReg r = s.readReg r) ∧
      t.pc = s.pc + 2 ∧ s.OnlyRegsPc t

/-- 42_alu.md R132 and R134: ADD Vx, Vy sets the carry and SUBN Vx, Vy the mirrored not-borrow, the flag last (D11,
log 24). The spec takes the two from general knowledge and their rows exist only with FULL_ALU (D1, log 23). -/
def Obligations.AddRegAndSubnSetTheFlag : Prop :=
  ∀ (x y : Nibble) (s : State),
    encode s.cfg (.addReg x y) = 0x8#4 ++ x ++ y ++ 0x4#4 ∧
    encode s.cfg (.subn x y) = 0x8#4 ++ x ++ y ++ 0x7#4 ∧
    (∃ t, exec (.addReg x y) s = .next t ∧
      (x ≠ vF → (t.readReg x).toNat = ((s.readReg x).toNat + (s.readReg y).toNat) % 256) ∧
      (t.readReg vF).toNat = (if 256 ≤ (s.readReg x).toNat + (s.readReg y).toNat then 1 else 0) ∧
      (∀ r, r ≠ x → r ≠ vF → t.readReg r = s.readReg r) ∧
      t.pc = s.pc + 2 ∧ s.OnlyRegsPc t) ∧
    (∃ t, exec (.subn x y) s = .next t ∧
      (x ≠ vF → ((t.readReg x).toNat : Int) = ((s.readReg y).toNat - (s.readReg x).toNat : Int) % 256) ∧
      (t.readReg vF).toNat = (if (s.readReg x).toNat ≤ (s.readReg y).toNat then 1 else 0) ∧
      (∀ r, r ≠ x → r ≠ vF → t.readReg r = s.readReg r) ∧
      t.pc = s.pc + 2 ∧ s.OnlyRegsPc t)

/-- 42_alu.md R133 and R135: SHR and SHL shift the operand SHIFT_SRC names by one, the bit shifted out in VF last (D2, D11,
log 24). The spec takes the two from general knowledge and their rows exist only with FULL_ALU (D1, log 23). -/
def Obligations.ShiftsSetTheBitShiftedOut : Prop :=
  ∀ (x y : Nibble) (s : State) (b : Byte),
    b = (if s.cfg.shiftSrc = .vy then s.readReg y else s.readReg x) →
    encode s.cfg (.shr x y) = 0x8#4 ++ x ++ y ++ 0x6#4 ∧
    encode s.cfg (.shl x y) = 0x8#4 ++ x ++ y ++ 0xE#4 ∧
    (∃ t, exec (.shr x y) s = .next t ∧
      (x ≠ vF → (t.readReg x).toNat = b.toNat / 2) ∧
      (t.readReg vF).toNat = b.toNat % 2 ∧
      (∀ r, r ≠ x → r ≠ vF → t.readReg r = s.readReg r) ∧
      t.pc = s.pc + 2 ∧ s.OnlyRegsPc t) ∧
    (∃ t, exec (.shl x y) s = .next t ∧
      (x ≠ vF → (t.readReg x).toNat = b.toNat * 2 % 256) ∧
      (t.readReg vF).toNat = b.toNat / 128 ∧
      (∀ r, r ≠ x → r ≠ vF → t.readReg r = s.readReg r) ∧
      t.pc = s.pc + 2 ∧ s.OnlyRegsPc t)

/-- 42_alu.md R136: RND Vx, kk masks a free byte, a new one at every draw. How the draws are numbered is the model's
choice (92_eei_decisions.md D25, log 7); the statement holds for every value of the counter. -/
def Obligations.RndMasksAFreeByte : Prop :=
  ∀ (x : Nibble) (kk : Byte) (s : State),
    encode s.cfg (.rnd x kk) = 0xC#4 ++ x ++ kk ∧
    ∃ t, exec (.rnd x kk) s = .next t ∧
      (∀ r, t.readReg r = if r = x then Config.freeRnd s.draws &&& kk else s.readReg r) ∧
      (kk = 0 → t.readReg x = 0) ∧ (kk = 0xFF#8 → t.readReg x = Config.freeRnd s.draws) ∧
      t.draws = s.draws + 1 ∧ t.pc = s.pc + 2 ∧ { s with draws := t.draws }.OnlyRegsPc t

/-! ## Control transfer, skips, halt (41_control.md) -/

/-- 41_control.md R101: JP nnn, with no default advance. -/
def Obligations.JpSetsPcToTheTarget : Prop :=
  ∀ (nnn : Addr) (s : State),
    encode s.cfg (.jp nnn) = 0x1#4 ++ nnn ∧
    ∃ t, exec (.jp nnn) s = .next t ∧ t.pc.toNat = nnn.toNat ∧ s.OnlyPc t

/-- 41_control.md R102: CALL nnn pushes its own address and jumps; with a full stack it takes STACK_OVERFLOW and
changes nothing. (For `sp` above 16, which no run reaches, log 12.) The push convention and the pushed address are
the spec's own choice (92_eei_decisions.md D17, D18; log 30). -/
def Obligations.CallPushesItsOwnAddress : Prop :=
  ∀ (nnn : Addr) (s : State),
    encode s.cfg (.call nnn) = 0x2#4 ++ nnn ∧
    (s.sp.toNat < 16 → s.pc.toNat ≤ 0xFFE →
      ∃ t, exec (.call nnn) s = .next t ∧ t.pc.toNat = nnn.toNat ∧ t.sp.toNat = s.sp.toNat + 1 ∧
        (∀ (j : Nat) (h : j < 16),
          if j = s.sp.toNat then (t.stack[j]).toNat = s.pc.toNat else t.stack[j] = s.stack[j]) ∧
        s.SameRegs t ∧ s.SameMemory t ∧ t = { s with pc := t.pc, sp := t.sp, stack := t.stack }) ∧
    (s.sp.toNat = 16 →
      exec (.call nnn) s = .next { s with
        status := .faulted, fault := some ⟨.stackOverflow, some (encode s.cfg (.call nnn)), s.pc⟩ })

/-- 41_control.md R100: RET pops and then receives the default advance, the popped entry keeping its value; with an
empty stack it takes STACK_UNDERFLOW and changes nothing. (For `sp` above 16, which no run reaches, log 12.) That RET advances is the spec's
own choice (92_eei_decisions.md D17, D18; log 30). -/
def Obligations.RetPopsAndAdvances : Prop :=
  ∀ (s : State),
    encode s.cfg .ret = 0x00EE#16 ∧
    (∀ (j : Nat) (h : j < 16), s.sp.toNat = j + 1 →
      ∃ t, exec .ret s = .next t ∧ t.pc.toNat = (s.stack[j]).toNat + 2 ∧ t.sp.toNat = j ∧
        s.SameRegs t ∧ s.SameMemory t ∧ t = { s with pc := t.pc, sp := t.sp }) ∧
    (s.sp.toNat = 0 →
      exec .ret s = .next { s with
        status := .faulted, fault := some ⟨.stackUnderflow, some 0x00EE#16, s.pc⟩ })

/-- The stack pointer above 16 names no entry (10_state.md R25), and no run reaches it: there CALL and RET stop. The
model's choice, log 12. -/
def Obligations.CallAndRetStopBeyondTheStack : Prop :=
  ∀ (nnn : Addr) (s : State), 16 < s.sp.toNat →
    exec (.call nnn) s = .fault .stackPointerBeyondStack ∧
    exec .ret s = .fault .stackPointerBeyondStack

/-- A CALL, then any change of the state that keeps the stack pointer and the entry pushed, then a RET: execution
resumes after the CALL with the stack pointer as before it (41_control.md R100, R102; 95_test_vectors.md E5). The
advance after the pop is the spec's own choice (92_eei_decisions.md D17, log 30). -/
def Obligations.RetResumesAfterTheCall : Prop :=
  ∀ (nnn : Addr) (s t u : State) (j : Nat) (h : j < 16), s.sp.toNat = j → s.pc.toNat ≤ 0xFFE →
    exec (.call nnn) s = .next t → u.sp = t.sp → u.stack[j] = t.stack[j] →
    ∃ w, exec .ret u = .next w ∧ w.pc = s.pc + 2 ∧ w.sp = s.sp ∧
      w = { u with pc := w.pc, sp := w.sp }

/-- 41_control.md R103 to R106: the four register skips advance by 4 when their condition holds and by 2 when not, and
write nothing but pc; a word of row 5 or 9 with another low nibble does not decode. -/
def Obligations.RegisterSkipsAdvanceByTwoOrFour : Prop :=
  ∀ (x y : Nibble) (kk : Byte) (s : State),
    (encode s.cfg (.seImm x kk) = 0x3#4 ++ x ++ kk ∧ encode s.cfg (.sneImm x kk) = 0x4#4 ++ x ++ kk ∧
      encode s.cfg (.seReg x y) = 0x5#4 ++ x ++ y ++ 0x0#4 ∧
      encode s.cfg (.sneReg x y) = 0x9#4 ++ x ++ y ++ 0x0#4) ∧
    (∀ n : Nibble, n ≠ 0 →
      (s.cfg.haltOpcode ≠ some (0x5#4 ++ x ++ y ++ n) → decode s.cfg (0x5#4 ++ x ++ y ++ n) = none) ∧
      (s.cfg.haltOpcode ≠ some (0x9#4 ++ x ++ y ++ n) → decode s.cfg (0x9#4 ++ x ++ y ++ n) = none)) ∧
    (∃ t, exec (.seImm x kk) s = .next t ∧ s.OnlyPc t ∧
      t.pc = if s.readReg x = kk then s.pc + 4 else s.pc + 2) ∧
    (∃ t, exec (.sneImm x kk) s = .next t ∧ s.OnlyPc t ∧
      t.pc = if s.readReg x = kk then s.pc + 2 else s.pc + 4) ∧
    (∃ t, exec (.seReg x y) s = .next t ∧ s.OnlyPc t ∧
      t.pc = if s.readReg x = s.readReg y then s.pc + 4 else s.pc + 2) ∧
    (∃ t, exec (.sneReg x y) s = .next t ∧ s.OnlyPc t ∧
      t.pc = if s.readReg x = s.readReg y then s.pc + 2 else s.pc + 4)

/-- 41_control.md R107: HALT takes the default advance and becomes Halted; its step returns Halt, and after it every
step and tick leaves the state unchanged. The advance and the freeze are the spec's own choice (92_eei_decisions.md D20,
D21; log 33). -/
def Obligations.HaltAdvancesAndFreezes : Prop :=
  ∀ (s : State),
    (∀ h, s.cfg.haltOpcode = some h → encode s.cfg .halt = h ∧ decode s.cfg h = some .halt) ∧
    (s.cfg.haltOpcode = none → ∀ op, decode s.cfg op ≠ some .halt) ∧
    ∃ t, exec .halt s = .next t ∧ t.pc = s.pc + 2 ∧ t.status = .halted ∧ t.outcome = .halt ∧
      s.SameRegs t ∧ s.SameMemory t ∧ t = { s with pc := t.pc, status := t.status } ∧
      cpuStep t = .next t ∧ t.tick = t

/-! ## Index register and memory (43_index_memory.md) -/

/-- 43_index_memory.md R150 and R152: LD I, nnn, and LD F, Vx from the low nibble of V[x]. -/
def Obligations.LdIAndLdFSetTheIndex : Prop :=
  ∀ (nnn : Addr) (x : Nibble) (s : State),
    encode s.cfg (.ldI nnn) = 0xA#4 ++ nnn ∧ encode s.cfg (.ldFVx x) = 0xF#4 ++ x ++ 0x29#8 ∧
    (∃ t, exec (.ldI nnn) s = .next t ∧ t.idx.toNat = nnn.toNat ∧ t.pc = s.pc + 2 ∧ s.OnlyIndexPc t) ∧
    (∃ t, exec (.ldFVx x) s = .next t ∧ t.idx.toNat = (s.readReg x).toNat % 16 * 5 ∧ t.pc = s.pc + 2 ∧
      s.OnlyIndexPc t)

/-- 43_index_memory.md R151: ADD I, Vx, the exact sum, not masked, no flag; above 0xFFFF it takes INDEX_OVERFLOW and
changes nothing. The width of I and the fault are the spec's own choice (92_eei_decisions.md D8, log 21). -/
def Obligations.AddIIsUnmasked : Prop :=
  ∀ (x : Nibble) (s : State),
    encode s.cfg (.addIVx x) = 0xF#4 ++ x ++ 0x1E#8 ∧
    (s.idx.toNat + (s.readReg x).toNat ≤ 0xFFFF →
      ∃ t, exec (.addIVx x) s = .next t ∧ t.idx.toNat = s.idx.toNat + (s.readReg x).toNat ∧
        t.pc = s.pc + 2 ∧ s.OnlyIndexPc t) ∧
    (0xFFFF < s.idx.toNat + (s.readReg x).toNat →
      exec (.addIVx x) s = .next { s with
        status := .faulted, fault := some ⟨.indexOverflow, some (encode s.cfg (.addIVx x)), s.pc⟩ })

/-- 43_index_memory.md R153: LD B, Vx stores the three decimal digits of V[x] at I, I+1 and I+2, and nothing else; out
of range, or in a font area that is not writable, it takes the fault and writes nothing. The faults are the spec's
own choice (92_eei_decisions.md D5, D9; logs 21, 34). -/
def Obligations.LdBStoresThreeDigits : Prop :=
  ∀ (x : Nibble) (s : State),
    encode s.cfg (.ldBVx x) = 0xF#4 ++ x ++ 0x33#8 ∧
    (s.indexAddr + 2 ≤ 0xFFF → (s.cfg.fontWritable = true ∨ 0x04F < s.indexAddr) →
      ∃ t, exec (.ldBVx x) s = .next t ∧
        (t.byteAt s.indexAddr).toNat = (s.readReg x).toNat / 100 ∧
        (t.byteAt (s.indexAddr + 1)).toNat = (s.readReg x).toNat / 10 % 10 ∧
        (t.byteAt (s.indexAddr + 2)).toNat = (s.readReg x).toNat % 10 ∧
        (∀ a, a < s.indexAddr ∨ s.indexAddr + 2 < a → t.byteAt a = s.byteAt a) ∧
        t.pc = s.pc + 2 ∧ s.SameRegs t ∧ t = { s with mem := t.mem, pc := t.pc }) ∧
    (0xFFF < s.indexAddr + 2 →
      exec (.ldBVx x) s = .next { s with
        status := .faulted, fault := some ⟨.memRange, some (encode s.cfg (.ldBVx x)), s.pc⟩ }) ∧
    (s.cfg.fontWritable = false → s.indexAddr ≤ 0x04F →
      exec (.ldBVx x) s = .next { s with
        status := .faulted, fault := some ⟨.fontWrite, some (encode s.cfg (.ldBVx x)), s.pc⟩ })

/-- 43_index_memory.md R154: LD [I], Vx stores V0..Vx inclusive from I on, and nothing else; I moves past them only with
LS_INDEX_INC; out of range, or in a font area that is not writable, it takes the fault and writes nothing.
The faults and LS_INDEX_INC are the spec's own choice (92_eei_decisions.md D5, D9, D16; logs 21, 29, 34). -/
def Obligations.LdMemStoresTheRegisters : Prop :=
  ∀ (x : Nibble) (s : State),
    encode s.cfg (.ldMemVx x) = 0xF#4 ++ x ++ 0x55#8 ∧
    (s.indexAddr + x.toNat ≤ 0xFFF → (s.cfg.fontWritable = true ∨ 0x04F < s.indexAddr) →
      ∃ t, exec (.ldMemVx x) s = .next t ∧
        (∀ r : Nibble, r.toNat ≤ x.toNat → t.byteAt (s.indexAddr + r.toNat) = s.readReg r) ∧
        (∀ a, a < s.indexAddr ∨ s.indexAddr + x.toNat < a → t.byteAt a = s.byteAt a) ∧
        t.idx.toNat = (if s.cfg.lsIndexInc then s.indexAddr + x.toNat + 1 else s.indexAddr) ∧
        t.pc = s.pc + 2 ∧ s.SameRegs t ∧ t = { s with mem := t.mem, idx := t.idx, pc := t.pc }) ∧
    (0xFFF < s.indexAddr + x.toNat →
      exec (.ldMemVx x) s = .next { s with
        status := .faulted, fault := some ⟨.memRange, some (encode s.cfg (.ldMemVx x)), s.pc⟩ }) ∧
    (s.cfg.fontWritable = false → s.indexAddr ≤ 0x04F →
      exec (.ldMemVx x) s = .next { s with
        status := .faulted, fault := some ⟨.fontWrite, some (encode s.cfg (.ldMemVx x)), s.pc⟩ })

/-- 43_index_memory.md R155: LD Vx, [I] loads V0..Vx inclusive from I on, VF as an ordinary register; I moves past them
only with LS_INDEX_INC; out of range it takes MEM_RANGE and loads nothing. The fault and LS_INDEX_INC are the spec's own choice
(92_eei_decisions.md D9, D16; logs 21, 29). -/
def Obligations.LdVxMemLoadsTheRegisters : Prop :=
  ∀ (x : Nibble) (s : State),
    encode s.cfg (.ldVxMem x) = 0xF#4 ++ x ++ 0x65#8 ∧
    (s.indexAddr + x.toNat ≤ 0xFFF →
      ∃ t, exec (.ldVxMem x) s = .next t ∧
        (∀ r, t.readReg r = if r.toNat ≤ x.toNat then s.byteAt (s.indexAddr + r.toNat) else s.readReg r) ∧
        t.idx.toNat = (if s.cfg.lsIndexInc then s.indexAddr + x.toNat + 1 else s.indexAddr) ∧
        t.pc = s.pc + 2 ∧ s.SameMemory t ∧ t = { s with v := t.v, idx := t.idx, pc := t.pc }) ∧
    (0xFFF < s.indexAddr + x.toNat →
      exec (.ldVxMem x) s = .next { s with
        status := .faulted, fault := some ⟨.memRange, some (encode s.cfg (.ldVxMem x)), s.pc⟩ })

/-- Registers stored by LD [I], Vx come back by LD Vx, [I] at the same I, whatever happened to the registers in
between (43_index_memory.md R154, R155; 20_memory.md R58). -/
def Obligations.StoredRegistersLoadBack : Prop :=
  ∀ (x : Nibble) (s t u : State), s.status = .running → exec (.ldMemVx x) s = .next t → t.status = .running →
    u.mem = t.mem → u.cfg = t.cfg → u.idx = s.idx →
    ∃ w, exec (.ldVxMem x) u = .next w ∧ w.status = u.status ∧
      ∀ r : Nibble, r.toNat ≤ x.toNat → w.readReg r = s.readReg r

/-! ## Display (44_display.md) -/

/-- 44_display.md R171: CLS unsets every pixel and sets `dirty`, and changes nothing else but pc. -/
def Obligations.ClsClearsEveryPixel : Prop :=
  ∀ (s : State),
    encode s.cfg .cls = 0x00E0#16 ∧
    ∃ t, exec .cls s = .next t ∧ (∀ c r, t.screen.px c r = false) ∧ t.dirty = true ∧ t.pc = s.pc + 2 ∧
      s.SameRegs t ∧ s.SameMemory t ∧ t = { s with screen := t.screen, dirty := t.dirty, pc := t.pc }

/-- 44_display.md R172 to R174: DRW. Pixel (c, r) is covered when bit 7 − j of sprite byte k is set, r is the start row plus
k (never wrapped), and c the start column plus j mod 64. Covered pixels flip, the others stay; VF is 1 exactly
when a set pixel was covered. The coordinates are read before VF is written. Out of range it takes MEM_RANGE and
changes nothing. The clipped rows, the order and the fault are the spec's own choice (92_eei_decisions.md D9, D11, D15; logs
21, 24, 28). -/
def Obligations.DrwXorsTheSprite : Prop :=
  ∀ (x y n : Nibble) (s : State) (covered : Fin 64 → Fin 32 → Prop),
    (∀ c r, covered c r ↔ ∃ k j : Nat, k < n.toNat ∧ j < 8 ∧
      (s.readReg y).toNat % 32 + k = r.val ∧ ((s.readReg x).toNat % 64 + j) % 64 = c.val ∧
      (s.byteAt (s.indexAddr + k)).getLsbD (7 - j) = true) →
    encode s.cfg (.drw x y n) = 0xD#4 ++ x ++ y ++ n ∧
    (n.toNat = 0 ∨ s.indexAddr + (n.toNat - 1) ≤ 0xFFF →
      ∃ t, exec (.drw x y n) s = .next t ∧
        (∀ c r, covered c r → t.screen.px c r = !s.screen.px c r) ∧
        (∀ c r, ¬ covered c r → t.screen.px c r = s.screen.px c r) ∧
        ((∃ c r, covered c r ∧ s.screen.px c r = true) → t.readReg vF = 1) ∧
        ((¬ ∃ c r, covered c r ∧ s.screen.px c r = true) → t.readReg vF = 0) ∧
        (∀ r, r ≠ vF → t.readReg r = s.readReg r) ∧
        t.dirty = true ∧ t.pc = s.pc + 2 ∧ s.SameMemory t ∧
        t = { s with v := t.v, screen := t.screen, dirty := t.dirty, pc := t.pc }) ∧
    (1 ≤ n.toNat → 0xFFF < s.indexAddr + (n.toNat - 1) →
      exec (.drw x y n) s = .next { s with
        status := .faulted, fault := some ⟨.memRange, some (encode s.cfg (.drw x y n)), s.pc⟩ })

/-- The same DRW twice, the first one's own VF write leaving V[x] and V[y] as they were, restores the screen, and the second
sets VF to 1 exactly when some covered pixel was unset before the first, else to 0 (44_display.md R172, R174). 44_display.md
R175 says "sets VF = 1 if the sprite has at least one set bit in a drawn row"; that follows from R172 only where a covered
pixel was unset, as on a clear screen (log 22). -/
def Obligations.DrawingTwiceRestoresTheScreen : Prop :=
  ∀ (x y n : Nibble) (s t : State), s.status = .running → exec (.drw x y n) s = .next t → t.status = .running →
    t.readReg x = s.readReg x → t.readReg y = s.readReg y →
    ∃ u, exec (.drw x y n) t = .next u ∧ u.screen = s.screen ∧
      (u.readReg vF = 1 ↔ ∃ (k j : Nat) (c : Fin 64) (r : Fin 32), k < n.toNat ∧ j < 8 ∧
        (s.readReg y).toNat % 32 + k = r.val ∧ ((s.readReg x).toNat % 64 + j) % 64 = c.val ∧
        (s.byteAt (s.indexAddr + k)).getLsbD (7 - j) = true ∧ s.screen.px c r = false) ∧
      (u.readReg vF = 1 ∨ u.readReg vF = 0)

/-! ## Keys and timers (45_timers_keys.md) -/

/-- 45_timers_keys.md R190 and R191: SKP skips when the sampled key is the whole of V[x], SKNP when it is not; a host value
outside 0..15 is no key (10_state.md R41). The width compared and the sampling are the spec's own choice
(92_eei_decisions.md D14, D24; log 27). -/
def Obligations.KeySkipsCompareTheWholeByte : Prop :=
  ∀ (x : Nibble) (s : State) (pressed : Prop),
    (pressed ↔ ∃ k : Int, s.keyIn = some k ∧ 0 ≤ k ∧ k ≤ 15 ∧ k = (s.readReg x).toNat) →
    encode s.cfg (.skp x) = 0xE#4 ++ x ++ 0x9E#8 ∧ encode s.cfg (.sknp x) = 0xE#4 ++ x ++ 0xA1#8 ∧
    (∃ t, exec (.skp x) s = .next t ∧ s.OnlyPc t ∧
      (pressed → t.pc = s.pc + 4) ∧ (¬ pressed → t.pc = s.pc + 2)) ∧
    (∃ t, exec (.sknp x) s = .next t ∧ s.OnlyPc t ∧
      (pressed → t.pc = s.pc + 2) ∧ (¬ pressed → t.pc = s.pc + 4))

/-- 45_timers_keys.md R192: LD Vx, DT reads the delay timer's value with no effect on the timer. -/
def Obligations.LdVxDtReadsTheDelayTimer : Prop :=
  ∀ (x : Nibble) (s : State),
    encode s.cfg (.ldVxDt x) = 0xF#4 ++ x ++ 0x07#8 ∧
    ∃ t, exec (.ldVxDt x) s = .next t ∧
      (∀ r, t.readReg r = if r = x then s.delay.value else s.readReg r) ∧
      t.pc = s.pc + 2 ∧ s.OnlyRegsPc t

/-- 45_timers_keys.md R193: LD Vx, K enters the waiting state with its destination latched and takes the default advance;
no register changes and the key is not read. The spec's own choice (92_eei_decisions.md D13, log 26). -/
def Obligations.LdVxKEntersTheWait : Prop :=
  ∀ (x : Nibble) (s : State),
    encode s.cfg (.ldVxK x) = 0xF#4 ++ x ++ 0x0A#8 ∧
    ∃ t, exec (.ldVxK x) s = .next t ∧ t.status = .waiting ∧ t.waitX = x ∧ t.pc = s.pc + 2 ∧
      s.SameRegs t ∧ s.SameMemory t ∧ t = { s with status := t.status, waitX := t.waitX, pc := t.pc }

/-- 45_timers_keys.md R197: LD DT, Vx activates the delay timer with the value, 0 included, and emits no signal; after a set
to 0 the next tick clears `active`. -/
def Obligations.LdDtSetsTheDelayTimer : Prop :=
  ∀ (x : Nibble) (s : State),
    encode s.cfg (.ldDtVx x) = 0xF#4 ++ x ++ 0x15#8 ∧
    ∃ t, exec (.ldDtVx x) s = .next t ∧ t.delay.value = s.readReg x ∧ t.delay.active = true ∧
      t.tones = s.tones ∧ t.pc = s.pc + 2 ∧ s.SameRegs t ∧ s.SameMemory t ∧
      t = { s with delay := t.delay, pc := t.pc } ∧
      (s.status = .running → s.readReg x = 0 → t.tick.delay.value = 0 ∧ t.tick.delay.active = false)

/-- 45_timers_keys.md R198: LD ST, Vx activates the sound timer with the value and emits TONE_START, for every value, 0
included, and whether or not the timer is active already. TONE_START on a set to 0 is the spec's own choice
(92_eei_decisions.md D22, log 32). -/
def Obligations.LdStSetsTheSoundTimer : Prop :=
  ∀ (x : Nibble) (s : State),
    encode s.cfg (.ldStVx x) = 0xF#4 ++ x ++ 0x18#8 ∧
    ∃ t, exec (.ldStVx x) s = .next t ∧ t.sound.value = s.readReg x ∧ t.sound.active = true ∧
      t.tones = s.tones ++ [.toneStart] ∧
      t.pc = s.pc + 2 ∧ s.SameRegs t ∧ s.SameMemory t ∧
      t = { s with sound := t.sound, tones := t.tones, pc := t.pc }

/-! ## The host's transactions -/

/-- 60_exceptions.md R221 and R222: a queued tick outside Halted and Faulted counts both timers down, deactivates one that
reaches 0, leaves an inactive one alone, emits TONE_STOP exactly when the sound timer deactivates, and touches
nothing else. A set to 0 and the tick while waiting are the spec's own choice (92_eei_decisions.md D20, D22, D23; logs 32,
33); the queue is the model's own (log 9). -/
def Obligations.TickCountsBothTimersDown : Prop :=
  ∀ (s : State) (rest : List HostOp), s.tornDown = false → s.cfg.legal = true → s.pending = .tick :: rest →
    (s.status = .running ∨ s.status = .waiting) →
    ∃ t, step s = .next t ∧
      (s.delay.active = true → t.delay.value.toNat = s.delay.value.toNat - 1 ∧
        (t.delay.active = true ↔ 2 ≤ s.delay.value.toNat)) ∧
      (s.delay.active = false → t.delay = s.delay) ∧
      (s.sound.active = true → t.sound.value.toNat = s.sound.value.toNat - 1 ∧
        (t.sound.active = true ↔ 2 ≤ s.sound.value.toNat)) ∧
      (s.sound.active = false → t.sound = s.sound) ∧
      t.tones = s.tones ++
        (if s.sound.active = true ∧ s.sound.value.toNat ≤ 1 then [.toneStop] else []) ∧
      t = { s with pending := rest, delay := t.delay, sound := t.sound, tones := t.tones }

/-- LD ST, Vx and then k ticks: the value counts down to 0 and stays, and one TONE_STOP is emitted, on the tick that
brings it to 0 and not before; a set to 0 stops on the first tick (60_exceptions.md R221 to R223; 95_test_vectors.md
E9, K15). The set to 0 is the spec's own choice (92_eei_decisions.md D22, log 32). -/
def Obligations.SoundTimerStopsOnceOnReachingZero : Prop :=
  ∀ (x : Nibble) (s t : State) (k : Nat), s.status = .running → exec (.ldStVx x) s = .next t →
    (State.tick^[k] t).sound.value.toNat = (s.readReg x).toNat - k ∧
    (State.tick^[k] t).tones = s.tones ++
      (if max (s.readReg x).toNat 1 ≤ k then [.toneStart, .toneStop] else [.toneStart])

/-- 70_reset_and_hazards.md R243: a queued load of at most 3584 bytes before the first step places them at 0x200 on, writes no
other byte and sets pc to 0x200; a longer one or a later one is refused (92_eei_decisions.md D27; logs 13, 35). -/
def Obligations.LoadPlacesTheProgram : Prop :=
  ∀ (s : State) (bytes : List Byte) (rest : List HostOp), s.tornDown = false → s.cfg.legal = true →
    s.pending = .load bytes :: rest →
    (s.started = false → bytes.length ≤ 3584 →
      ∃ t, step s = .next t ∧ t.pc = 0x200#16 ∧
        (∀ (j : Nat) (h : j < bytes.length), t.byteAt (0x200 + j) = bytes[j]) ∧
        (∀ a, a < 0x200 ∨ 0x200 + bytes.length ≤ a → t.byteAt a = s.byteAt a) ∧
        s.SameRegs t ∧ t = { s with pending := rest, mem := t.mem, pc := t.pc }) ∧
    (s.started = false → 3584 < bytes.length → step s = .refused .loadTooLong) ∧
    (s.started = true → step s = .refused .loadAfterStart)

/-- 44_display.md R178: a queued render read copies the pixels, clears `dirty` and returns true when it is set, returns false
and does nothing when it is not, and changes no other state. The copy's place, `frame`, is the model's own (log 20). -/
def Obligations.RenderCopiesWhenDirty : Prop :=
  ∀ (s : State) (rest : List HostOp), s.tornDown = false → s.cfg.legal = true → s.pending = .render :: rest →
    (s.dirty = true → s.renderReturns = true ∧
      step s = .next { s with pending := rest, frame := some s.screen, dirty := false }) ∧
    (s.dirty = false → s.renderReturns = false ∧ step s = .next { s with pending := rest })

/-- 10_state.md R46: a queued teardown emits exactly one STOP_FINAL and changes no other state (but the model's own record
of it). R46 says of what follows only that no step or tick is legal; that EVERY transaction after it is refused, a load, a
render read and a second teardown too, is the model's choice (log 13). -/
def Obligations.TeardownStopsTheToneForGood : Prop :=
  (∀ (s : State) (rest : List HostOp), s.tornDown = false → s.cfg.legal = true → s.pending = .teardown :: rest →
    step s = .next { s with pending := rest, tones := s.tones ++ [.stopFinal], tornDown := true }) ∧
  (∀ s : State, s.tornDown = true → step s = .refused .afterTeardown)

/-- A HALT_OPCODE that the decoder without the HALT line recognizes is refused (30_encoding.md R86; 92_eei_decisions.md D3;
that the step refuses is the model's choice, log 14). -/
def Obligations.IllegalHaltOpcodeIsRefused : Prop :=
  ∀ (s : State) (h : Word) (i : Instr), s.tornDown = false → s.cfg.haltOpcode = some h →
    decode { s.cfg with haltOpcode := none } h = some i → step s = .refused .illegalConfig

/-! ## Whole-machine rules -/

/-- 10_state.md R21: an instruction that changes VF is one of the flag writers or names VF as its destination or range. -/
def Obligations.OnlyTheseInstructionsChangeVF : Prop :=
  ∀ (i : Instr) (s t : State), exec i s = .next t → t.readReg vF ≠ s.readReg vF →
    (∃ x y, i = .sub x y ∨ i = .addReg x y ∨ i = .shr x y ∨ i = .subn x y ∨ i = .shl x y) ∨
    (∃ x y n, i = .drw x y n) ∨
    (∃ kk, i = .ldImm vF kk ∨ i = .addImm vF kk ∨ i = .rnd vF kk) ∨
    (∃ y, i = .ldReg vF y ∨ i = .andReg vF y ∨ i = .orReg vF y ∨ i = .xorReg vF y) ∨
    i = .ldVxDt vF ∨ i = .ldVxMem vF

/-- Who writes what, over all instructions: V0..VF and pc (10_state.md R22), the stack (R25), I (R24), the timers and tones
(60_exceptions.md R225), the screen and `dirty` (10_state.md R28), memory (20_memory.md R52), status, `wait_x` and the fault
record (10_state.md R22, R29, R30: status by LD Vx, K, HALT or a fault, the record by a fault alone). The clauses on `cfg`,
`draws`, `keyIn`, `pending`, `tones`, `started`, `tornDown` and `frame` are about the model's own fields, which stand for the
parameters and the host's side (logs 1, 7, 8, 9, 10, 13, 20). -/
def Obligations.EachStateHasItsOnlyWriters : Prop :=
  ∀ (i : Instr) (s t : State), exec i s = .next t →
    (∀ r, t.readReg r ≠ s.readReg r →
      (∃ kk, i = .ldImm r kk ∨ i = .addImm r kk ∨ i = .rnd r kk) ∨
      (∃ y, i = .ldReg r y ∨ i = .orReg r y ∨ i = .andReg r y ∨ i = .xorReg r y ∨ i = .addReg r y ∨ i = .sub r y ∨
        i = .subn r y ∨ i = .shr r y ∨ i = .shl r y) ∨
      i = .ldVxDt r ∨ (∃ x, i = .ldVxMem x ∧ r.toNat ≤ x.toNat) ∨
      (r = vF ∧ ((∃ x y, i = .addReg x y ∨ i = .sub x y ∨ i = .subn x y ∨ i = .shr x y ∨ i = .shl x y) ∨
        ∃ x y n, i = .drw x y n))) ∧
    (t.pc ≠ s.pc + 2 →
      i = .ret ∨ (∃ nnn, i = .jp nnn ∨ i = .call nnn) ∨ (t.pc = s.pc ∧ t.status = .faulted) ∨
      (t.pc = s.pc + 4 ∧ ((∃ x kk, i = .seImm x kk ∨ i = .sneImm x kk) ∨ (∃ x y, i = .seReg x y ∨ i = .sneReg x y) ∨
        ∃ x, i = .skp x ∨ i = .sknp x))) ∧
    (t.status ≠ s.status ∨ t.fault ≠ s.fault →
      (∃ x, i = .ldVxK x ∧ t.status = .waiting ∧ t.fault = s.fault) ∨
      (i = .halt ∧ t.status = .halted ∧ t.fault = s.fault) ∨
      (t.status = .faulted ∧ (i = .ret ∨ (∃ nnn, i = .call nnn) ∨ (∃ x y n, i = .drw x y n) ∨
        ∃ x, i = .addIVx x ∨ i = .ldBVx x ∨ i = .ldMemVx x ∨ i = .ldVxMem x))) ∧
    (t.sp ≠ s.sp ∨ t.stack ≠ s.stack → i = .ret ∨ ∃ nnn, i = .call nnn) ∧
    (t.idx ≠ s.idx →
      (∃ nnn, i = .ldI nnn) ∨ (∃ x, i = .ldFVx x ∨ i = .addIVx x) ∨
      (s.cfg.lsIndexInc = true ∧ ∃ x, i = .ldMemVx x ∨ i = .ldVxMem x)) ∧
    (t.delay ≠ s.delay → ∃ x, i = .ldDtVx x) ∧
    (t.sound ≠ s.sound ∨ t.tones ≠ s.tones → ∃ x, i = .ldStVx x) ∧
    (t.screen ≠ s.screen ∨ t.dirty ≠ s.dirty → i = .cls ∨ ∃ x y n, i = .drw x y n) ∧
    ((∃ a, t.byteAt a ≠ s.byteAt a) → ∃ x, i = .ldBVx x ∨ i = .ldMemVx x) ∧
    (t.waitX ≠ s.waitX → ∃ x, i = .ldVxK x) ∧
    (t.draws ≠ s.draws → ∃ x kk, i = .rnd x kk) ∧
    t.cfg = s.cfg ∧ t.keyIn = s.keyIn ∧ t.frame = s.frame ∧ t.pending = s.pending ∧
    t.started = s.started ∧ t.tornDown = s.tornDown

/-- No instruction reads `dirty` (44_display.md R176): two states that differ in it alone end in states that differ in it
alone, for every instruction. -/
def Obligations.NoInstructionReadsDirty : Prop :=
  ∀ (i : Instr) (s t : State) (b : Bool), exec i s = .next t →
    ∃ t', exec i { s with dirty := b } = .next t' ∧ t' = { t with dirty := t'.dirty }

/-- No transaction changes the parameters (00_scope.md R10: a model is instantiated with one value of each). That they
stand in State is the model's choice, log 1. -/
def Obligations.StepKeepsTheConfiguration : Prop :=
  ∀ (s t : State), step s = .next t → t.cfg = s.cfg

/-! ## Reset and the invariant -/

/-- 10_state.md R36, 70_reset_and_hazards.md R240: the values at construction, in every configuration; the ones the spec
leaves to RESET_FILL are 0 under `zero`. The timers, `dirty`, status, wait_x and RESET_FILL are the spec's own choice
(92_eei_decisions.md D6, D20, D26; logs 4, 5, 19). Two clauses are the model's choice: pc = 0x200 already at construction,
where the spec gives pc only after the load (log 18), and that reset takes the reference configuration (log 2). -/
def Obligations.ResetHoldsTheSpecValues : Prop :=
  (∀ (c : Config) (s : State), s = State.resetWith c →
    s.cfg = c ∧ s.sp = 0 ∧ s.pc = 0x200#16 ∧
    (∀ d k : Nat, (hd : d < 16) → (hk : k < 5) → s.byteAt (5 * d + k) = (c.font[d])[k]) ∧
    (∀ col row, s.screen.px col row = false) ∧ s.dirty = true ∧
    s.delay = ⟨0, false⟩ ∧ s.sound = ⟨0, false⟩ ∧ s.status = .running ∧ s.waitX = 0 ∧ s.fault = none ∧
    (c.resetFill = .zero →
      (∀ r, s.readReg r = 0) ∧ s.idx = 0 ∧ (∀ (j : Nat) (h : j < 16), s.stack[j] = 0) ∧
      ∀ a, 80 ≤ a → s.byteAt a = 0)) ∧
  State.reset = State.resetWith Config.reference

/-- The machine right after reset meets the invariant, in every legal configuration. -/
def Obligations.ResetMeetsTheInvariant : Prop :=
  (∀ c : Config, c.legal = true → (State.resetWith c).Inv) ∧ State.reset.Inv

/-- Every step keeps the invariant: canonical memory inside 0x000..0xFFF, `sp` at most 16 with fetched addresses in the entries
in use, an inactive timer at 0, pc at most 0x1002, a fault record exactly in Faulted, and, until teardown, the
tone on exactly while the sound timer is active (10_state.md R23, R25, R27, R29, R30, R32; 60_exceptions.md R223). -/
def Obligations.EveryStepKeepsTheInvariant : Prop :=
  ∀ (s t : State), s.Inv → step s = .next t → t.Inv

/-- In a state that meets the invariant, a transaction the spec allows always answers a next state: no stop by `.fault`, no
refusal. -/
def Obligations.LegalTransactionsAlwaysAnswer : Prop :=
  ∀ s : State, s.Inv → s.hostLegal → ∃ t, step s = .next t
end

