-- ==== Sys2Proof/Laws/Decode.lean ====
section
/-! SUPPORT. The bits of an encoded instruction, the fields read back from it, and what a mask of the opcode table selects. -/

namespace Sys2Proof

theorem getLsbD_encodeA (m : Nibble) (nnn : Addr) (i : Nat) :
    (encodeA m nnn).getLsbD i = if i < 12 then nnn.getLsbD i else m.getLsbD (i - 12) := by
  change BitVec.getLsbD (w := 4 + 12) (m ++ nnn) i = _
  rw [BitVec.getLsbD_append]

theorem getLsbD_encodeXK (m x : Nibble) (kk : Byte) (i : Nat) :
    (encodeXK m x kk).getLsbD i =
      if i < 8 then kk.getLsbD i else if i < 12 then x.getLsbD (i - 8) else m.getLsbD (i - 12) := by
  change BitVec.getLsbD (w := 4 + 4 + 8) (m ++ x ++ kk) i = _
  rw [BitVec.getLsbD_append, BitVec.getLsbD_append]
  grind

theorem getLsbD_encodeXYN (m x y n : Nibble) (i : Nat) :
    (encodeXYN m x y n).getLsbD i =
      if i < 4 then n.getLsbD i else if i < 8 then y.getLsbD (i - 4)
      else if i < 12 then x.getLsbD (i - 8) else m.getLsbD (i - 12) := by
  change BitVec.getLsbD (w := 4 + 4 + 4 + 4) (m ++ x ++ y ++ n) i = _
  rw [BitVec.getLsbD_append, BitVec.getLsbD_append, BitVec.getLsbD_append]
  grind

@[simp] theorem fieldMajor_encodeA (m : Nibble) (nnn : Addr) : fieldMajor (encodeA m nnn) = m := by
  ext i hi; simp only [fieldMajor, BitVec.getElem_extractLsb', getLsbD_encodeA]; grind

@[simp] theorem fieldNnn_encodeA (m : Nibble) (nnn : Addr) : fieldNnn (encodeA m nnn) = nnn := by
  ext i hi; simp only [fieldNnn, BitVec.getElem_extractLsb', getLsbD_encodeA]; grind

@[simp] theorem fieldMajor_encodeXK (m x : Nibble) (kk : Byte) : fieldMajor (encodeXK m x kk) = m := by
  ext i hi; simp only [fieldMajor, BitVec.getElem_extractLsb', getLsbD_encodeXK]; grind

@[simp] theorem fieldX_encodeXK (m x : Nibble) (kk : Byte) : fieldX (encodeXK m x kk) = x := by
  ext i hi; simp only [fieldX, BitVec.getElem_extractLsb', getLsbD_encodeXK]; grind

@[simp] theorem fieldKk_encodeXK (m x : Nibble) (kk : Byte) : fieldKk (encodeXK m x kk) = kk := by
  ext i hi; simp only [fieldKk, BitVec.getElem_extractLsb', getLsbD_encodeXK]; grind

@[simp] theorem fieldMajor_encodeXYN (m x y n : Nibble) : fieldMajor (encodeXYN m x y n) = m := by
  ext i hi; simp only [fieldMajor, BitVec.getElem_extractLsb', getLsbD_encodeXYN]; grind

@[simp] theorem fieldX_encodeXYN (m x y n : Nibble) : fieldX (encodeXYN m x y n) = x := by
  ext i hi; simp only [fieldX, BitVec.getElem_extractLsb', getLsbD_encodeXYN]; grind

@[simp] theorem fieldY_encodeXYN (m x y n : Nibble) : fieldY (encodeXYN m x y n) = y := by
  ext i hi; simp only [fieldY, BitVec.getElem_extractLsb', getLsbD_encodeXYN]; grind

@[simp] theorem fieldN_encodeXYN (m x y n : Nibble) : fieldN (encodeXYN m x y n) = n := by
  ext i hi; simp only [fieldN, BitVec.getElem_extractLsb', getLsbD_encodeXYN]; grind

/-- An opcode is its major nibble and its address. -/
theorem encodeA_fields (op : Word) : encodeA (fieldMajor op) (fieldNnn op) = op := by
  apply BitVec.eq_of_getLsbD_eq
  intro i hi
  simp only [getLsbD_encodeA, fieldMajor, fieldNnn, BitVec.getLsbD_extractLsb']
  grind

/-- An opcode is its major nibble, x and kk. -/
theorem encodeXK_fields (op : Word) : encodeXK (fieldMajor op) (fieldX op) (fieldKk op) = op := by
  apply BitVec.eq_of_getLsbD_eq
  intro i hi
  simp only [getLsbD_encodeXK, fieldMajor, fieldX, fieldKk, BitVec.getLsbD_extractLsb']
  grind

/-- An opcode is its four nibbles. -/
theorem encodeXYN_fields (op : Word) : encodeXYN (fieldMajor op) (fieldX op) (fieldY op) (fieldN op) = op := by
  apply BitVec.eq_of_getLsbD_eq
  intro i hi
  simp only [getLsbD_encodeXYN, fieldMajor, fieldX, fieldY, fieldN, BitVec.getLsbD_extractLsb']
  grind

/-- The two bytes of an opcode give the opcode back (20_memory.md R51). -/
@[simp] theorem wordOfBytes_bytes (op : Word) : wordOfBytes (wordFirstByte op) (wordSecondByte op) = op := by
  apply BitVec.eq_of_getLsbD_eq
  intro i hi
  change BitVec.getLsbD (w := 8 + 8) (wordFirstByte op ++ wordSecondByte op) i = _
  simp only [BitVec.getLsbD_append, wordFirstByte, wordSecondByte, BitVec.getLsbD_extractLsb']
  grind

/-- Mask 0xF000 selects by the major nibble. -/
theorem and_major (op : Word) (m : Nibble) : op &&& 0xF000#16 = encodeA m 0 ↔ fieldMajor op = m := by
  constructor
  · intro h
    rw [← fieldMajor_encodeA m 0, ← h]
    ext i hi
    simp only [fieldMajor, BitVec.getElem_extractLsb', BitVec.getLsbD_and]
    have : i = 0 ∨ i = 1 ∨ i = 2 ∨ i = 3 := by omega
    rcases this with rfl | rfl | rfl | rfl <;> simp
  · rintro rfl
    have : op &&& 0xF000#16 = encodeA (fieldMajor op) (fieldNnn op) &&& encodeA 0xF 0 := by
      rw [encodeA_fields]; rfl
    rw [this]
    apply BitVec.eq_of_getLsbD_eq
    intro i hi
    simp only [BitVec.getLsbD_and, getLsbD_encodeA]
    have : i - 12 = 0 ∨ i - 12 = 1 ∨ i - 12 = 2 ∨ i - 12 = 3 := by omega
    split
    · simp
    · rcases this with h | h | h | h <;> simp [h]

/-- Mask 0xF00F selects by the major and the low nibble. -/
theorem and_major_low (op : Word) (m n : Nibble) :
    op &&& 0xF00F#16 = encodeXYN m 0 0 n ↔ fieldMajor op = m ∧ fieldN op = n := by
  have key : op &&& 0xF00F#16 = encodeXYN (fieldMajor op) 0 0 (fieldN op) := by
    have : op &&& 0xF00F#16 = encodeXYN (fieldMajor op) (fieldX op) (fieldY op) (fieldN op) &&& encodeXYN 0xF 0 0 0xF := by
      rw [encodeXYN_fields]; rfl
    rw [this]
    apply BitVec.eq_of_getLsbD_eq
    intro i hi
    simp only [BitVec.getLsbD_and, getLsbD_encodeXYN]
    have h1 : i - 12 = 0 ∨ i - 12 = 1 ∨ i - 12 = 2 ∨ i - 12 = 3 := by omega
    split
    · next h =>
      have h2 : i = 0 ∨ i = 1 ∨ i = 2 ∨ i = 3 := by omega
      rcases h2 with h | h | h | h <;> simp [h]
    · split
      · simp
      · split
        · simp
        · rcases h1 with h | h | h | h <;> simp [h]
  rw [key]
  constructor
  · intro h
    exact ⟨by simpa using congrArg fieldMajor h, by simpa using congrArg fieldN h⟩
  · rintro ⟨rfl, rfl⟩; rfl

/-- Mask 0xF0FF selects by the major nibble and the low byte. -/
theorem and_major_byte (op : Word) (m : Nibble) (kk : Byte) :
    op &&& 0xF0FF#16 = encodeXK m 0 kk ↔ fieldMajor op = m ∧ fieldKk op = kk := by
  have key : op &&& 0xF0FF#16 = encodeXK (fieldMajor op) 0 (fieldKk op) := by
    have : op &&& 0xF0FF#16 = encodeXK (fieldMajor op) (fieldX op) (fieldKk op) &&& encodeXK 0xF 0 0xFF := by
      rw [encodeXK_fields]; rfl
    rw [this]
    apply BitVec.eq_of_getLsbD_eq
    intro i hi
    simp only [BitVec.getLsbD_and, getLsbD_encodeXK]
    have h1 : i - 12 = 0 ∨ i - 12 = 1 ∨ i - 12 = 2 ∨ i - 12 = 3 := by omega
    split
    · next h =>
      have h2 : i = 0 ∨ i = 1 ∨ i = 2 ∨ i = 3 ∨ i = 4 ∨ i = 5 ∨ i = 6 ∨ i = 7 := by omega
      rcases h2 with h | h | h | h | h | h | h | h <;> simp [h]
    · split
      · simp
      · rcases h1 with h | h | h | h <;> simp [h]
  rw [key]
  constructor
  · intro h
    exact ⟨by simpa using congrArg fieldMajor h, by simpa using congrArg fieldKk h⟩
  · rintro ⟨rfl, rfl⟩; rfl

/-! ## The fields and the rows as numbers -/

theorem toNat_fieldMajor (op : Word) : (fieldMajor op).toNat = op.toNat / 4096 := by
  simp [fieldMajor, BitVec.extractLsb'_toNat, Nat.shiftRight_eq_div_pow]; omega

theorem toNat_fieldX (op : Word) : (fieldX op).toNat = op.toNat / 256 % 16 := by
  simp [fieldX, BitVec.extractLsb'_toNat, Nat.shiftRight_eq_div_pow]

theorem toNat_fieldY (op : Word) : (fieldY op).toNat = op.toNat / 16 % 16 := by
  simp [fieldY, BitVec.extractLsb'_toNat, Nat.shiftRight_eq_div_pow]

theorem toNat_fieldN (op : Word) : (fieldN op).toNat = op.toNat % 16 := by
  simp [fieldN, BitVec.extractLsb'_toNat]

theorem toNat_fieldKk (op : Word) : (fieldKk op).toNat = op.toNat % 256 := by
  simp [fieldKk, BitVec.extractLsb'_toNat]

theorem toNat_fieldNnn (op : Word) : (fieldNnn op).toNat = op.toNat % 4096 := by
  simp [fieldNnn, BitVec.extractLsb'_toNat]

/-- The sixteen values of a nibble, for a case split on the major nibble. -/
theorem nibble_cases (m : Nibble) : m = 0#4 ∨ m = 1#4 ∨ m = 2#4 ∨ m = 3#4 ∨ m = 4#4 ∨ m = 5#4 ∨ m = 6#4 ∨ m = 7#4 ∨
    m = 8#4 ∨ m = 9#4 ∨ m = 10#4 ∨ m = 11#4 ∨ m = 12#4 ∨ m = 13#4 ∨ m = 14#4 ∨ m = 15#4 := by
  grind

theorem decodeRow0_none (op : Word) : decodeRow0 op = none ↔ op.toNat ≠ 0xE0 ∧ op.toNat ≠ 0xEE := by
  unfold decodeRow0
  simp only [← BitVec.toNat_inj]
  split_ifs <;> simp_all

theorem decodeRow8_none (f : Bool) (x y n : Nibble) : decodeRow8 f x y n = none ↔
    n.toNat ∈ [0x8, 0x9, 0xA, 0xB, 0xC, 0xD, 0xF] ∨ f = false ∧ n.toNat ∈ [0x1, 0x3, 0x4, 0x6, 0x7, 0xE] := by
  rcases nibble_cases n with h | h | h | h | h | h | h | h | h | h | h | h | h | h | h | h <;> subst h <;>
    cases f <;> simp [decodeRow8]

theorem decodeRowE_none (x : Nibble) (kk : Byte) : decodeRowE x kk = none ↔ kk.toNat ∉ [0x9E, 0xA1] := by
  unfold decodeRowE
  simp only [← BitVec.toNat_inj]
  split_ifs <;> simp_all

theorem decodeRowF_none (x : Nibble) (kk : Byte) :
    decodeRowF x kk = none ↔ kk.toNat ∉ [0x07, 0x0A, 0x15, 0x18, 0x1E, 0x29, 0x33, 0x55, 0x65] := by
  unfold decodeRowF
  simp only [← BitVec.toNat_inj]
  split_ifs <;> simp_all

end Sys2Proof
end

