-- ==== Sys2Proof/Laws/State.lean ====
section
/-! SUPPORT. One lemma per field per update of the state, true by rfl: no later proof unfolds a record update. -/

namespace Sys2Proof.Machine

variable (s : State)

/-! ## writeReg -/

@[simp] theorem State.writeReg_v (x : Nibble) (b : Byte) : (s.writeReg x b).v = s.v.set x.toNat b := rfl
@[simp] theorem State.writeReg_idx (x : Nibble) (b : Byte) : (s.writeReg x b).idx = s.idx := rfl
@[simp] theorem State.writeReg_pc (x : Nibble) (b : Byte) : (s.writeReg x b).pc = s.pc := rfl
@[simp] theorem State.writeReg_sp (x : Nibble) (b : Byte) : (s.writeReg x b).sp = s.sp := rfl
@[simp] theorem State.writeReg_stack (x : Nibble) (b : Byte) : (s.writeReg x b).stack = s.stack := rfl
@[simp] theorem State.writeReg_delay (x : Nibble) (b : Byte) : (s.writeReg x b).delay = s.delay := rfl
@[simp] theorem State.writeReg_sound (x : Nibble) (b : Byte) : (s.writeReg x b).sound = s.sound := rfl
@[simp] theorem State.writeReg_screen (x : Nibble) (b : Byte) : (s.writeReg x b).screen = s.screen := rfl
@[simp] theorem State.writeReg_dirty (x : Nibble) (b : Byte) : (s.writeReg x b).dirty = s.dirty := rfl
@[simp] theorem State.writeReg_status (x : Nibble) (b : Byte) : (s.writeReg x b).status = s.status := rfl
@[simp] theorem State.writeReg_waitX (x : Nibble) (b : Byte) : (s.writeReg x b).waitX = s.waitX := rfl
@[simp] theorem State.writeReg_fault (x : Nibble) (b : Byte) : (s.writeReg x b).fault = s.fault := rfl
@[simp] theorem State.writeReg_mem (x : Nibble) (b : Byte) : (s.writeReg x b).mem = s.mem := rfl
@[simp] theorem State.writeReg_cfg (x : Nibble) (b : Byte) : (s.writeReg x b).cfg = s.cfg := rfl
@[simp] theorem State.writeReg_keyIn (x : Nibble) (b : Byte) : (s.writeReg x b).keyIn = s.keyIn := rfl
@[simp] theorem State.writeReg_draws (x : Nibble) (b : Byte) : (s.writeReg x b).draws = s.draws := rfl
@[simp] theorem State.writeReg_tones (x : Nibble) (b : Byte) : (s.writeReg x b).tones = s.tones := rfl
@[simp] theorem State.writeReg_frame (x : Nibble) (b : Byte) : (s.writeReg x b).frame = s.frame := rfl
@[simp] theorem State.writeReg_pending (x : Nibble) (b : Byte) : (s.writeReg x b).pending = s.pending := rfl
@[simp] theorem State.writeReg_started (x : Nibble) (b : Byte) : (s.writeReg x b).started = s.started := rfl
@[simp] theorem State.writeReg_tornDown (x : Nibble) (b : Byte) : (s.writeReg x b).tornDown = s.tornDown := rfl
@[simp] theorem State.writeReg_byteAt (x : Nibble) (b : Byte) (addr : Nat) : (s.writeReg x b).byteAt addr = s.byteAt addr := rfl
@[simp] theorem State.writeReg_key (x : Nibble) (b : Byte) : (s.writeReg x b).key = s.key := rfl

/-! ## setIndex -/

@[simp] theorem State.setIndex_v (w : Word) : (s.setIndex w).v = s.v := rfl
@[simp] theorem State.setIndex_idx (w : Word) : (s.setIndex w).idx = w := rfl
@[simp] theorem State.setIndex_pc (w : Word) : (s.setIndex w).pc = s.pc := rfl
@[simp] theorem State.setIndex_sp (w : Word) : (s.setIndex w).sp = s.sp := rfl
@[simp] theorem State.setIndex_stack (w : Word) : (s.setIndex w).stack = s.stack := rfl
@[simp] theorem State.setIndex_delay (w : Word) : (s.setIndex w).delay = s.delay := rfl
@[simp] theorem State.setIndex_sound (w : Word) : (s.setIndex w).sound = s.sound := rfl
@[simp] theorem State.setIndex_screen (w : Word) : (s.setIndex w).screen = s.screen := rfl
@[simp] theorem State.setIndex_dirty (w : Word) : (s.setIndex w).dirty = s.dirty := rfl
@[simp] theorem State.setIndex_status (w : Word) : (s.setIndex w).status = s.status := rfl
@[simp] theorem State.setIndex_waitX (w : Word) : (s.setIndex w).waitX = s.waitX := rfl
@[simp] theorem State.setIndex_fault (w : Word) : (s.setIndex w).fault = s.fault := rfl
@[simp] theorem State.setIndex_mem (w : Word) : (s.setIndex w).mem = s.mem := rfl
@[simp] theorem State.setIndex_cfg (w : Word) : (s.setIndex w).cfg = s.cfg := rfl
@[simp] theorem State.setIndex_keyIn (w : Word) : (s.setIndex w).keyIn = s.keyIn := rfl
@[simp] theorem State.setIndex_draws (w : Word) : (s.setIndex w).draws = s.draws := rfl
@[simp] theorem State.setIndex_tones (w : Word) : (s.setIndex w).tones = s.tones := rfl
@[simp] theorem State.setIndex_frame (w : Word) : (s.setIndex w).frame = s.frame := rfl
@[simp] theorem State.setIndex_pending (w : Word) : (s.setIndex w).pending = s.pending := rfl
@[simp] theorem State.setIndex_started (w : Word) : (s.setIndex w).started = s.started := rfl
@[simp] theorem State.setIndex_tornDown (w : Word) : (s.setIndex w).tornDown = s.tornDown := rfl
@[simp] theorem State.setIndex_readReg (w : Word) (r : Nibble) : (s.setIndex w).readReg r = s.readReg r := rfl
@[simp] theorem State.setIndex_byteAt (w : Word) (addr : Nat) : (s.setIndex w).byteAt addr = s.byteAt addr := rfl
@[simp] theorem State.setIndex_key (w : Word) : (s.setIndex w).key = s.key := rfl

/-! ## advance -/

@[simp] theorem State.advance_v : (s.advance).v = s.v := rfl
@[simp] theorem State.advance_idx : (s.advance).idx = s.idx := rfl
@[simp] theorem State.advance_pc : (s.advance).pc = s.pc + 2 := rfl
@[simp] theorem State.advance_sp : (s.advance).sp = s.sp := rfl
@[simp] theorem State.advance_stack : (s.advance).stack = s.stack := rfl
@[simp] theorem State.advance_delay : (s.advance).delay = s.delay := rfl
@[simp] theorem State.advance_sound : (s.advance).sound = s.sound := rfl
@[simp] theorem State.advance_screen : (s.advance).screen = s.screen := rfl
@[simp] theorem State.advance_dirty : (s.advance).dirty = s.dirty := rfl
@[simp] theorem State.advance_status : (s.advance).status = s.status := rfl
@[simp] theorem State.advance_waitX : (s.advance).waitX = s.waitX := rfl
@[simp] theorem State.advance_fault : (s.advance).fault = s.fault := rfl
@[simp] theorem State.advance_mem : (s.advance).mem = s.mem := rfl
@[simp] theorem State.advance_cfg : (s.advance).cfg = s.cfg := rfl
@[simp] theorem State.advance_keyIn : (s.advance).keyIn = s.keyIn := rfl
@[simp] theorem State.advance_draws : (s.advance).draws = s.draws := rfl
@[simp] theorem State.advance_tones : (s.advance).tones = s.tones := rfl
@[simp] theorem State.advance_frame : (s.advance).frame = s.frame := rfl
@[simp] theorem State.advance_pending : (s.advance).pending = s.pending := rfl
@[simp] theorem State.advance_started : (s.advance).started = s.started := rfl
@[simp] theorem State.advance_tornDown : (s.advance).tornDown = s.tornDown := rfl
@[simp] theorem State.advance_readReg (r : Nibble) : (s.advance).readReg r = s.readReg r := rfl
@[simp] theorem State.advance_byteAt (addr : Nat) : (s.advance).byteAt addr = s.byteAt addr := rfl
@[simp] theorem State.advance_key : (s.advance).key = s.key := rfl

/-! ## skipIf -/

@[simp] theorem State.skipIf_v (c : Bool) : (s.skipIf c).v = s.v := rfl
@[simp] theorem State.skipIf_idx (c : Bool) : (s.skipIf c).idx = s.idx := rfl
@[simp] theorem State.skipIf_pc (c : Bool) : (s.skipIf c).pc = if c then s.pc + 4 else s.pc + 2 := rfl
@[simp] theorem State.skipIf_sp (c : Bool) : (s.skipIf c).sp = s.sp := rfl
@[simp] theorem State.skipIf_stack (c : Bool) : (s.skipIf c).stack = s.stack := rfl
@[simp] theorem State.skipIf_delay (c : Bool) : (s.skipIf c).delay = s.delay := rfl
@[simp] theorem State.skipIf_sound (c : Bool) : (s.skipIf c).sound = s.sound := rfl
@[simp] theorem State.skipIf_screen (c : Bool) : (s.skipIf c).screen = s.screen := rfl
@[simp] theorem State.skipIf_dirty (c : Bool) : (s.skipIf c).dirty = s.dirty := rfl
@[simp] theorem State.skipIf_status (c : Bool) : (s.skipIf c).status = s.status := rfl
@[simp] theorem State.skipIf_waitX (c : Bool) : (s.skipIf c).waitX = s.waitX := rfl
@[simp] theorem State.skipIf_fault (c : Bool) : (s.skipIf c).fault = s.fault := rfl
@[simp] theorem State.skipIf_mem (c : Bool) : (s.skipIf c).mem = s.mem := rfl
@[simp] theorem State.skipIf_cfg (c : Bool) : (s.skipIf c).cfg = s.cfg := rfl
@[simp] theorem State.skipIf_keyIn (c : Bool) : (s.skipIf c).keyIn = s.keyIn := rfl
@[simp] theorem State.skipIf_draws (c : Bool) : (s.skipIf c).draws = s.draws := rfl
@[simp] theorem State.skipIf_tones (c : Bool) : (s.skipIf c).tones = s.tones := rfl
@[simp] theorem State.skipIf_frame (c : Bool) : (s.skipIf c).frame = s.frame := rfl
@[simp] theorem State.skipIf_pending (c : Bool) : (s.skipIf c).pending = s.pending := rfl
@[simp] theorem State.skipIf_started (c : Bool) : (s.skipIf c).started = s.started := rfl
@[simp] theorem State.skipIf_tornDown (c : Bool) : (s.skipIf c).tornDown = s.tornDown := rfl
@[simp] theorem State.skipIf_readReg (c : Bool) (r : Nibble) : (s.skipIf c).readReg r = s.readReg r := rfl
@[simp] theorem State.skipIf_byteAt (c : Bool) (addr : Nat) : (s.skipIf c).byteAt addr = s.byteAt addr := rfl
@[simp] theorem State.skipIf_key (c : Bool) : (s.skipIf c).key = s.key := rfl

/-! ## jump -/

@[simp] theorem State.jump_v (nnn : Addr) : (s.jump nnn).v = s.v := rfl
@[simp] theorem State.jump_idx (nnn : Addr) : (s.jump nnn).idx = s.idx := rfl
@[simp] theorem State.jump_pc (nnn : Addr) : (s.jump nnn).pc = nnn.zeroExtend 16 := rfl
@[simp] theorem State.jump_sp (nnn : Addr) : (s.jump nnn).sp = s.sp := rfl
@[simp] theorem State.jump_stack (nnn : Addr) : (s.jump nnn).stack = s.stack := rfl
@[simp] theorem State.jump_delay (nnn : Addr) : (s.jump nnn).delay = s.delay := rfl
@[simp] theorem State.jump_sound (nnn : Addr) : (s.jump nnn).sound = s.sound := rfl
@[simp] theorem State.jump_screen (nnn : Addr) : (s.jump nnn).screen = s.screen := rfl
@[simp] theorem State.jump_dirty (nnn : Addr) : (s.jump nnn).dirty = s.dirty := rfl
@[simp] theorem State.jump_status (nnn : Addr) : (s.jump nnn).status = s.status := rfl
@[simp] theorem State.jump_waitX (nnn : Addr) : (s.jump nnn).waitX = s.waitX := rfl
@[simp] theorem State.jump_fault (nnn : Addr) : (s.jump nnn).fault = s.fault := rfl
@[simp] theorem State.jump_mem (nnn : Addr) : (s.jump nnn).mem = s.mem := rfl
@[simp] theorem State.jump_cfg (nnn : Addr) : (s.jump nnn).cfg = s.cfg := rfl
@[simp] theorem State.jump_keyIn (nnn : Addr) : (s.jump nnn).keyIn = s.keyIn := rfl
@[simp] theorem State.jump_draws (nnn : Addr) : (s.jump nnn).draws = s.draws := rfl
@[simp] theorem State.jump_tones (nnn : Addr) : (s.jump nnn).tones = s.tones := rfl
@[simp] theorem State.jump_frame (nnn : Addr) : (s.jump nnn).frame = s.frame := rfl
@[simp] theorem State.jump_pending (nnn : Addr) : (s.jump nnn).pending = s.pending := rfl
@[simp] theorem State.jump_started (nnn : Addr) : (s.jump nnn).started = s.started := rfl
@[simp] theorem State.jump_tornDown (nnn : Addr) : (s.jump nnn).tornDown = s.tornDown := rfl
@[simp] theorem State.jump_readReg (nnn : Addr) (r : Nibble) : (s.jump nnn).readReg r = s.readReg r := rfl
@[simp] theorem State.jump_byteAt (nnn : Addr) (addr : Nat) : (s.jump nnn).byteAt addr = s.byteAt addr := rfl
@[simp] theorem State.jump_key (nnn : Addr) : (s.jump nnn).key = s.key := rfl

/-! ## putByte -/

@[simp] theorem State.putByte_v (a : Nat) (b : Byte) : (s.putByte a b).v = s.v := rfl
@[simp] theorem State.putByte_idx (a : Nat) (b : Byte) : (s.putByte a b).idx = s.idx := rfl
@[simp] theorem State.putByte_pc (a : Nat) (b : Byte) : (s.putByte a b).pc = s.pc := rfl
@[simp] theorem State.putByte_sp (a : Nat) (b : Byte) : (s.putByte a b).sp = s.sp := rfl
@[simp] theorem State.putByte_stack (a : Nat) (b : Byte) : (s.putByte a b).stack = s.stack := rfl
@[simp] theorem State.putByte_delay (a : Nat) (b : Byte) : (s.putByte a b).delay = s.delay := rfl
@[simp] theorem State.putByte_sound (a : Nat) (b : Byte) : (s.putByte a b).sound = s.sound := rfl
@[simp] theorem State.putByte_screen (a : Nat) (b : Byte) : (s.putByte a b).screen = s.screen := rfl
@[simp] theorem State.putByte_dirty (a : Nat) (b : Byte) : (s.putByte a b).dirty = s.dirty := rfl
@[simp] theorem State.putByte_status (a : Nat) (b : Byte) : (s.putByte a b).status = s.status := rfl
@[simp] theorem State.putByte_waitX (a : Nat) (b : Byte) : (s.putByte a b).waitX = s.waitX := rfl
@[simp] theorem State.putByte_fault (a : Nat) (b : Byte) : (s.putByte a b).fault = s.fault := rfl
@[simp] theorem State.putByte_mem (a : Nat) (b : Byte) : (s.putByte a b).mem = Memory.put (s.cfg.initialByte a) a b s.mem := rfl
@[simp] theorem State.putByte_cfg (a : Nat) (b : Byte) : (s.putByte a b).cfg = s.cfg := rfl
@[simp] theorem State.putByte_keyIn (a : Nat) (b : Byte) : (s.putByte a b).keyIn = s.keyIn := rfl
@[simp] theorem State.putByte_draws (a : Nat) (b : Byte) : (s.putByte a b).draws = s.draws := rfl
@[simp] theorem State.putByte_tones (a : Nat) (b : Byte) : (s.putByte a b).tones = s.tones := rfl
@[simp] theorem State.putByte_frame (a : Nat) (b : Byte) : (s.putByte a b).frame = s.frame := rfl
@[simp] theorem State.putByte_pending (a : Nat) (b : Byte) : (s.putByte a b).pending = s.pending := rfl
@[simp] theorem State.putByte_started (a : Nat) (b : Byte) : (s.putByte a b).started = s.started := rfl
@[simp] theorem State.putByte_tornDown (a : Nat) (b : Byte) : (s.putByte a b).tornDown = s.tornDown := rfl
@[simp] theorem State.putByte_readReg (a : Nat) (b : Byte) (r : Nibble) : (s.putByte a b).readReg r = s.readReg r := rfl
@[simp] theorem State.putByte_key (a : Nat) (b : Byte) : (s.putByte a b).key = s.key := rfl

/-! ## enterFault -/

@[simp] theorem State.enterFault_v (k : FaultKind) (op : Option Word) : (s.enterFault k op).v = s.v := rfl
@[simp] theorem State.enterFault_idx (k : FaultKind) (op : Option Word) : (s.enterFault k op).idx = s.idx := rfl
@[simp] theorem State.enterFault_pc (k : FaultKind) (op : Option Word) : (s.enterFault k op).pc = s.pc := rfl
@[simp] theorem State.enterFault_sp (k : FaultKind) (op : Option Word) : (s.enterFault k op).sp = s.sp := rfl
@[simp] theorem State.enterFault_stack (k : FaultKind) (op : Option Word) : (s.enterFault k op).stack = s.stack := rfl
@[simp] theorem State.enterFault_delay (k : FaultKind) (op : Option Word) : (s.enterFault k op).delay = s.delay := rfl
@[simp] theorem State.enterFault_sound (k : FaultKind) (op : Option Word) : (s.enterFault k op).sound = s.sound := rfl
@[simp] theorem State.enterFault_screen (k : FaultKind) (op : Option Word) : (s.enterFault k op).screen = s.screen := rfl
@[simp] theorem State.enterFault_dirty (k : FaultKind) (op : Option Word) : (s.enterFault k op).dirty = s.dirty := rfl
@[simp] theorem State.enterFault_status (k : FaultKind) (op : Option Word) : (s.enterFault k op).status = .faulted := rfl
@[simp] theorem State.enterFault_waitX (k : FaultKind) (op : Option Word) : (s.enterFault k op).waitX = s.waitX := rfl
@[simp] theorem State.enterFault_fault (k : FaultKind) (op : Option Word) : (s.enterFault k op).fault = some ⟨k, op, s.pc⟩ := rfl
@[simp] theorem State.enterFault_mem (k : FaultKind) (op : Option Word) : (s.enterFault k op).mem = s.mem := rfl
@[simp] theorem State.enterFault_cfg (k : FaultKind) (op : Option Word) : (s.enterFault k op).cfg = s.cfg := rfl
@[simp] theorem State.enterFault_keyIn (k : FaultKind) (op : Option Word) : (s.enterFault k op).keyIn = s.keyIn := rfl
@[simp] theorem State.enterFault_draws (k : FaultKind) (op : Option Word) : (s.enterFault k op).draws = s.draws := rfl
@[simp] theorem State.enterFault_tones (k : FaultKind) (op : Option Word) : (s.enterFault k op).tones = s.tones := rfl
@[simp] theorem State.enterFault_frame (k : FaultKind) (op : Option Word) : (s.enterFault k op).frame = s.frame := rfl
@[simp] theorem State.enterFault_pending (k : FaultKind) (op : Option Word) : (s.enterFault k op).pending = s.pending := rfl
@[simp] theorem State.enterFault_started (k : FaultKind) (op : Option Word) : (s.enterFault k op).started = s.started := rfl
@[simp] theorem State.enterFault_tornDown (k : FaultKind) (op : Option Word) : (s.enterFault k op).tornDown = s.tornDown := rfl
@[simp] theorem State.enterFault_readReg (k : FaultKind) (op : Option Word) (r : Nibble) : (s.enterFault k op).readReg r = s.readReg r := rfl
@[simp] theorem State.enterFault_byteAt (k : FaultKind) (op : Option Word) (addr : Nat) : (s.enterFault k op).byteAt addr = s.byteAt addr := rfl
@[simp] theorem State.enterFault_key (k : FaultKind) (op : Option Word) : (s.enterFault k op).key = s.key := rfl

/-! ## push -/

@[simp] theorem State.push_v (a : Addr) (h : s.sp.toNat < 16) : (s.push a h).v = s.v := rfl
@[simp] theorem State.push_idx (a : Addr) (h : s.sp.toNat < 16) : (s.push a h).idx = s.idx := rfl
@[simp] theorem State.push_pc (a : Addr) (h : s.sp.toNat < 16) : (s.push a h).pc = s.pc := rfl
@[simp] theorem State.push_sp (a : Addr) (h : s.sp.toNat < 16) : (s.push a h).sp = s.sp + 1 := rfl
@[simp] theorem State.push_stack (a : Addr) (h : s.sp.toNat < 16) : (s.push a h).stack = s.stack.set s.sp.toNat a := rfl
@[simp] theorem State.push_delay (a : Addr) (h : s.sp.toNat < 16) : (s.push a h).delay = s.delay := rfl
@[simp] theorem State.push_sound (a : Addr) (h : s.sp.toNat < 16) : (s.push a h).sound = s.sound := rfl
@[simp] theorem State.push_screen (a : Addr) (h : s.sp.toNat < 16) : (s.push a h).screen = s.screen := rfl
@[simp] theorem State.push_dirty (a : Addr) (h : s.sp.toNat < 16) : (s.push a h).dirty = s.dirty := rfl
@[simp] theorem State.push_status (a : Addr) (h : s.sp.toNat < 16) : (s.push a h).status = s.status := rfl
@[simp] theorem State.push_waitX (a : Addr) (h : s.sp.toNat < 16) : (s.push a h).waitX = s.waitX := rfl
@[simp] theorem State.push_fault (a : Addr) (h : s.sp.toNat < 16) : (s.push a h).fault = s.fault := rfl
@[simp] theorem State.push_mem (a : Addr) (h : s.sp.toNat < 16) : (s.push a h).mem = s.mem := rfl
@[simp] theorem State.push_cfg (a : Addr) (h : s.sp.toNat < 16) : (s.push a h).cfg = s.cfg := rfl
@[simp] theorem State.push_keyIn (a : Addr) (h : s.sp.toNat < 16) : (s.push a h).keyIn = s.keyIn := rfl
@[simp] theorem State.push_draws (a : Addr) (h : s.sp.toNat < 16) : (s.push a h).draws = s.draws := rfl
@[simp] theorem State.push_tones (a : Addr) (h : s.sp.toNat < 16) : (s.push a h).tones = s.tones := rfl
@[simp] theorem State.push_frame (a : Addr) (h : s.sp.toNat < 16) : (s.push a h).frame = s.frame := rfl
@[simp] theorem State.push_pending (a : Addr) (h : s.sp.toNat < 16) : (s.push a h).pending = s.pending := rfl
@[simp] theorem State.push_started (a : Addr) (h : s.sp.toNat < 16) : (s.push a h).started = s.started := rfl
@[simp] theorem State.push_tornDown (a : Addr) (h : s.sp.toNat < 16) : (s.push a h).tornDown = s.tornDown := rfl
@[simp] theorem State.push_readReg (a : Addr) (h : s.sp.toNat < 16) (r : Nibble) : (s.push a h).readReg r = s.readReg r := rfl
@[simp] theorem State.push_byteAt (a : Addr) (h : s.sp.toNat < 16) (addr : Nat) : (s.push a h).byteAt addr = s.byteAt addr := rfl
@[simp] theorem State.push_key (a : Addr) (h : s.sp.toNat < 16) : (s.push a h).key = s.key := rfl

/-! ## emit -/

@[simp] theorem State.emit_v (sig : ToneSignal) : (s.emit sig).v = s.v := rfl
@[simp] theorem State.emit_idx (sig : ToneSignal) : (s.emit sig).idx = s.idx := rfl
@[simp] theorem State.emit_pc (sig : ToneSignal) : (s.emit sig).pc = s.pc := rfl
@[simp] theorem State.emit_sp (sig : ToneSignal) : (s.emit sig).sp = s.sp := rfl
@[simp] theorem State.emit_stack (sig : ToneSignal) : (s.emit sig).stack = s.stack := rfl
@[simp] theorem State.emit_delay (sig : ToneSignal) : (s.emit sig).delay = s.delay := rfl
@[simp] theorem State.emit_sound (sig : ToneSignal) : (s.emit sig).sound = s.sound := rfl
@[simp] theorem State.emit_screen (sig : ToneSignal) : (s.emit sig).screen = s.screen := rfl
@[simp] theorem State.emit_dirty (sig : ToneSignal) : (s.emit sig).dirty = s.dirty := rfl
@[simp] theorem State.emit_status (sig : ToneSignal) : (s.emit sig).status = s.status := rfl
@[simp] theorem State.emit_waitX (sig : ToneSignal) : (s.emit sig).waitX = s.waitX := rfl
@[simp] theorem State.emit_fault (sig : ToneSignal) : (s.emit sig).fault = s.fault := rfl
@[simp] theorem State.emit_mem (sig : ToneSignal) : (s.emit sig).mem = s.mem := rfl
@[simp] theorem State.emit_cfg (sig : ToneSignal) : (s.emit sig).cfg = s.cfg := rfl
@[simp] theorem State.emit_keyIn (sig : ToneSignal) : (s.emit sig).keyIn = s.keyIn := rfl
@[simp] theorem State.emit_draws (sig : ToneSignal) : (s.emit sig).draws = s.draws := rfl
@[simp] theorem State.emit_tones (sig : ToneSignal) : (s.emit sig).tones = s.tones ++ [sig] := rfl
@[simp] theorem State.emit_frame (sig : ToneSignal) : (s.emit sig).frame = s.frame := rfl
@[simp] theorem State.emit_pending (sig : ToneSignal) : (s.emit sig).pending = s.pending := rfl
@[simp] theorem State.emit_started (sig : ToneSignal) : (s.emit sig).started = s.started := rfl
@[simp] theorem State.emit_tornDown (sig : ToneSignal) : (s.emit sig).tornDown = s.tornDown := rfl
@[simp] theorem State.emit_readReg (sig : ToneSignal) (r : Nibble) : (s.emit sig).readReg r = s.readReg r := rfl
@[simp] theorem State.emit_byteAt (sig : ToneSignal) (addr : Nat) : (s.emit sig).byteAt addr = s.byteAt addr := rfl
@[simp] theorem State.emit_key (sig : ToneSignal) : (s.emit sig).key = s.key := rfl

/-! ## setDelay -/

@[simp] theorem State.setDelay_v (b : Byte) : (s.setDelay b).v = s.v := rfl
@[simp] theorem State.setDelay_idx (b : Byte) : (s.setDelay b).idx = s.idx := rfl
@[simp] theorem State.setDelay_pc (b : Byte) : (s.setDelay b).pc = s.pc := rfl
@[simp] theorem State.setDelay_sp (b : Byte) : (s.setDelay b).sp = s.sp := rfl
@[simp] theorem State.setDelay_stack (b : Byte) : (s.setDelay b).stack = s.stack := rfl
@[simp] theorem State.setDelay_delay (b : Byte) : (s.setDelay b).delay = setTimer b := rfl
@[simp] theorem State.setDelay_sound (b : Byte) : (s.setDelay b).sound = s.sound := rfl
@[simp] theorem State.setDelay_screen (b : Byte) : (s.setDelay b).screen = s.screen := rfl
@[simp] theorem State.setDelay_dirty (b : Byte) : (s.setDelay b).dirty = s.dirty := rfl
@[simp] theorem State.setDelay_status (b : Byte) : (s.setDelay b).status = s.status := rfl
@[simp] theorem State.setDelay_waitX (b : Byte) : (s.setDelay b).waitX = s.waitX := rfl
@[simp] theorem State.setDelay_fault (b : Byte) : (s.setDelay b).fault = s.fault := rfl
@[simp] theorem State.setDelay_mem (b : Byte) : (s.setDelay b).mem = s.mem := rfl
@[simp] theorem State.setDelay_cfg (b : Byte) : (s.setDelay b).cfg = s.cfg := rfl
@[simp] theorem State.setDelay_keyIn (b : Byte) : (s.setDelay b).keyIn = s.keyIn := rfl
@[simp] theorem State.setDelay_draws (b : Byte) : (s.setDelay b).draws = s.draws := rfl
@[simp] theorem State.setDelay_tones (b : Byte) : (s.setDelay b).tones = s.tones := rfl
@[simp] theorem State.setDelay_frame (b : Byte) : (s.setDelay b).frame = s.frame := rfl
@[simp] theorem State.setDelay_pending (b : Byte) : (s.setDelay b).pending = s.pending := rfl
@[simp] theorem State.setDelay_started (b : Byte) : (s.setDelay b).started = s.started := rfl
@[simp] theorem State.setDelay_tornDown (b : Byte) : (s.setDelay b).tornDown = s.tornDown := rfl
@[simp] theorem State.setDelay_readReg (b : Byte) (r : Nibble) : (s.setDelay b).readReg r = s.readReg r := rfl
@[simp] theorem State.setDelay_byteAt (b : Byte) (addr : Nat) : (s.setDelay b).byteAt addr = s.byteAt addr := rfl
@[simp] theorem State.setDelay_key (b : Byte) : (s.setDelay b).key = s.key := rfl

/-! ## setSound -/

@[simp] theorem State.setSound_v (b : Byte) : (s.setSound b).v = s.v := rfl
@[simp] theorem State.setSound_idx (b : Byte) : (s.setSound b).idx = s.idx := rfl
@[simp] theorem State.setSound_pc (b : Byte) : (s.setSound b).pc = s.pc := rfl
@[simp] theorem State.setSound_sp (b : Byte) : (s.setSound b).sp = s.sp := rfl
@[simp] theorem State.setSound_stack (b : Byte) : (s.setSound b).stack = s.stack := rfl
@[simp] theorem State.setSound_delay (b : Byte) : (s.setSound b).delay = s.delay := rfl
@[simp] theorem State.setSound_sound (b : Byte) : (s.setSound b).sound = setTimer b := rfl
@[simp] theorem State.setSound_screen (b : Byte) : (s.setSound b).screen = s.screen := rfl
@[simp] theorem State.setSound_dirty (b : Byte) : (s.setSound b).dirty = s.dirty := rfl
@[simp] theorem State.setSound_status (b : Byte) : (s.setSound b).status = s.status := rfl
@[simp] theorem State.setSound_waitX (b : Byte) : (s.setSound b).waitX = s.waitX := rfl
@[simp] theorem State.setSound_fault (b : Byte) : (s.setSound b).fault = s.fault := rfl
@[simp] theorem State.setSound_mem (b : Byte) : (s.setSound b).mem = s.mem := rfl
@[simp] theorem State.setSound_cfg (b : Byte) : (s.setSound b).cfg = s.cfg := rfl
@[simp] theorem State.setSound_keyIn (b : Byte) : (s.setSound b).keyIn = s.keyIn := rfl
@[simp] theorem State.setSound_draws (b : Byte) : (s.setSound b).draws = s.draws := rfl
@[simp] theorem State.setSound_tones (b : Byte) : (s.setSound b).tones = s.tones ++ [.toneStart] := rfl
@[simp] theorem State.setSound_frame (b : Byte) : (s.setSound b).frame = s.frame := rfl
@[simp] theorem State.setSound_pending (b : Byte) : (s.setSound b).pending = s.pending := rfl
@[simp] theorem State.setSound_started (b : Byte) : (s.setSound b).started = s.started := rfl
@[simp] theorem State.setSound_tornDown (b : Byte) : (s.setSound b).tornDown = s.tornDown := rfl
@[simp] theorem State.setSound_readReg (b : Byte) (r : Nibble) : (s.setSound b).readReg r = s.readReg r := rfl
@[simp] theorem State.setSound_byteAt (b : Byte) (addr : Nat) : (s.setSound b).byteAt addr = s.byteAt addr := rfl
@[simp] theorem State.setSound_key (b : Byte) : (s.setSound b).key = s.key := rfl

/-! ## commitKey -/

@[simp] theorem State.commitKey_v (k : Fin 16) : (s.commitKey k).v = s.v.set s.waitX.toNat (keyByte k) := rfl
@[simp] theorem State.commitKey_idx (k : Fin 16) : (s.commitKey k).idx = s.idx := rfl
@[simp] theorem State.commitKey_pc (k : Fin 16) : (s.commitKey k).pc = s.pc := rfl
@[simp] theorem State.commitKey_sp (k : Fin 16) : (s.commitKey k).sp = s.sp := rfl
@[simp] theorem State.commitKey_stack (k : Fin 16) : (s.commitKey k).stack = s.stack := rfl
@[simp] theorem State.commitKey_delay (k : Fin 16) : (s.commitKey k).delay = s.delay := rfl
@[simp] theorem State.commitKey_sound (k : Fin 16) : (s.commitKey k).sound = s.sound := rfl
@[simp] theorem State.commitKey_screen (k : Fin 16) : (s.commitKey k).screen = s.screen := rfl
@[simp] theorem State.commitKey_dirty (k : Fin 16) : (s.commitKey k).dirty = s.dirty := rfl
@[simp] theorem State.commitKey_status (k : Fin 16) : (s.commitKey k).status = .running := rfl
@[simp] theorem State.commitKey_waitX (k : Fin 16) : (s.commitKey k).waitX = s.waitX := rfl
@[simp] theorem State.commitKey_fault (k : Fin 16) : (s.commitKey k).fault = s.fault := rfl
@[simp] theorem State.commitKey_mem (k : Fin 16) : (s.commitKey k).mem = s.mem := rfl
@[simp] theorem State.commitKey_cfg (k : Fin 16) : (s.commitKey k).cfg = s.cfg := rfl
@[simp] theorem State.commitKey_keyIn (k : Fin 16) : (s.commitKey k).keyIn = s.keyIn := rfl
@[simp] theorem State.commitKey_draws (k : Fin 16) : (s.commitKey k).draws = s.draws := rfl
@[simp] theorem State.commitKey_tones (k : Fin 16) : (s.commitKey k).tones = s.tones := rfl
@[simp] theorem State.commitKey_frame (k : Fin 16) : (s.commitKey k).frame = s.frame := rfl
@[simp] theorem State.commitKey_pending (k : Fin 16) : (s.commitKey k).pending = s.pending := rfl
@[simp] theorem State.commitKey_started (k : Fin 16) : (s.commitKey k).started = s.started := rfl
@[simp] theorem State.commitKey_tornDown (k : Fin 16) : (s.commitKey k).tornDown = s.tornDown := rfl
@[simp] theorem State.commitKey_byteAt (k : Fin 16) (addr : Nat) : (s.commitKey k).byteAt addr = s.byteAt addr := rfl
@[simp] theorem State.commitKey_key (k : Fin 16) : (s.commitKey k).key = s.key := rfl

/-! ## begin -/

@[simp] theorem State.begin_v : (s.begin).v = s.v := rfl
@[simp] theorem State.begin_idx : (s.begin).idx = s.idx := rfl
@[simp] theorem State.begin_pc : (s.begin).pc = s.pc := rfl
@[simp] theorem State.begin_sp : (s.begin).sp = s.sp := rfl
@[simp] theorem State.begin_stack : (s.begin).stack = s.stack := rfl
@[simp] theorem State.begin_delay : (s.begin).delay = s.delay := rfl
@[simp] theorem State.begin_sound : (s.begin).sound = s.sound := rfl
@[simp] theorem State.begin_screen : (s.begin).screen = s.screen := rfl
@[simp] theorem State.begin_dirty : (s.begin).dirty = s.dirty := rfl
@[simp] theorem State.begin_status : (s.begin).status = s.status := rfl
@[simp] theorem State.begin_waitX : (s.begin).waitX = s.waitX := rfl
@[simp] theorem State.begin_fault : (s.begin).fault = s.fault := rfl
@[simp] theorem State.begin_mem : (s.begin).mem = s.mem := rfl
@[simp] theorem State.begin_cfg : (s.begin).cfg = s.cfg := rfl
@[simp] theorem State.begin_keyIn : (s.begin).keyIn = s.keyIn := rfl
@[simp] theorem State.begin_draws : (s.begin).draws = s.draws := rfl
@[simp] theorem State.begin_tones : (s.begin).tones = s.tones := rfl
@[simp] theorem State.begin_frame : (s.begin).frame = s.frame := rfl
@[simp] theorem State.begin_pending : (s.begin).pending = s.pending := rfl
@[simp] theorem State.begin_started : (s.begin).started = true := rfl
@[simp] theorem State.begin_tornDown : (s.begin).tornDown = s.tornDown := rfl
@[simp] theorem State.begin_readReg (r : Nibble) : (s.begin).readReg r = s.readReg r := rfl
@[simp] theorem State.begin_byteAt (addr : Nat) : (s.begin).byteAt addr = s.byteAt addr := rfl
@[simp] theorem State.begin_key : (s.begin).key = s.key := rfl

end Sys2Proof.Machine
end

