-- ==== Sys2Proof/Laws/Ops.lean ====
section
/-! SUPPORT. What each shared operation over registers and memory can do, said once. -/

namespace Sys2Proof.Machine

/-! ## Registers -/

theorem State.readReg_writeReg (s : State) (x r : Nibble) (b : Byte) :
    (s.writeReg x b).readReg r = if r = x then b else s.readReg r := by
  simp only [State.readReg, State.writeReg, Vector.getElem_set, BitVec.toNat_inj, eq_comm (a := x)]

@[simp] theorem State.readReg_writeReg_self (s : State) (x : Nibble) (b : Byte) :
    (s.writeReg x b).readReg x = b := by simp [State.readReg_writeReg]

@[simp] theorem State.writeFlag_eq (s : State) (b : Byte) : s.writeFlag b = s.writeReg vF b := rfl

/-- Two states with equal registers have equal register files. -/
theorem State.v_ext {s t : State} (h : ∀ r, t.readReg r = s.readReg r) : t.v = s.v := by
  ext i hi j hj
  have := h (BitVec.ofNat 4 i)
  simp only [State.readReg, BitVec.toNat_ofNat, Nat.mod_eq_of_lt (show i < 2 ^ 4 from hi)] at this
  rw [this]

theorem State.readReg_writeRegsThrough (s : State) (x r : Nibble) (bs : List Byte) :
    (s.writeRegsThrough x bs).readReg r =
      if r.toNat ≤ x.toNat then bs.getD r.toNat (s.readReg r) else s.readReg r := by
  simp [State.readReg, State.writeRegsThrough, regCount]

/-! ## Memory -/

namespace Memory

theorem get_unlist (d : Nat → Byte) (a a' : Nat) (m : Memory) :
    get d a' (unlist a m) = if a' = a then d a else get d a' m := by
  induction m with
  | nil => by_cases h : a' = a <;> simp [unlist, get, h]
  | cons c rest ih =>
    obtain ⟨k, b⟩ := c
    simp only [unlist] at ih
    by_cases hk : k = a
    · subst hk
      by_cases h : a' = k
      · simpa [unlist, get, h] using ih
      · simpa [unlist, get, h, Ne.symm h, eq_comm] using ih
    · by_cases h : a' = a
      · subst h
        simpa [unlist, get, hk] using ih
      · by_cases h2 : k = a' <;> simp_all [unlist, get]

theorem get_list (d : Nat → Byte) (a a' : Nat) (b : Byte) (m : Memory) (h : ∀ c ∈ m, c.1 ≠ a) :
    get d a' (list a b m) = if a' = a then b else get d a' m := by
  induction m with
  | nil =>
    by_cases h : a' = a
    · simp [list, get, h]
    · simp [list, get, h, Ne.symm h]
  | cons c rest ih =>
    obtain ⟨k, w⟩ := c
    have hk : k ≠ a := h (k, w) (by simp)
    have ih := ih fun c hc => h c (by simp [hc])
    by_cases hlt : a < k
    · by_cases h2 : a' = a
      · simp [list, get, hlt, h2]
      · simp [list, get, hlt, h2, Ne.symm h2]
    · by_cases h2 : a' = a
      · subst h2; simp [list, get, hlt, hk, ih]
      · simp [list, get, hlt, h2, ih]

/-- A byte reads as it was last written, every other byte as before (20_memory.md R58). -/
theorem get_put (d : Nat → Byte) (a a' : Nat) (b : Byte) (m : Memory) :
    get d a' (put (d a) a b m) = if a' = a then b else get d a' m := by
  unfold put
  split
  · next h => rw [get_unlist]; split <;> simp_all
  · rw [get_list _ _ _ _ _ (by simp [unlist]), get_unlist]
    split <;> simp_all

theorem mem_list {a : Nat} {b : Byte} {m : Memory} {c : Host.Cell} (h : c ∈ list a b m) : c = (a, b) ∨ c ∈ m := by
  induction m with
  | nil => simpa [list] using h
  | cons c' rest ih =>
    simp only [list] at h
    split at h
    · simpa using h
    · rcases List.mem_cons.1 h with h | h
      · simp [h]
      · rcases ih h with h | h <;> simp [h]

theorem pairwise_list {a : Nat} {b : Byte} {m : Memory} (hs : m.Pairwise fun c c' => c.1 < c'.1)
    (ha : ∀ c ∈ m, c.1 ≠ a) : (list a b m).Pairwise fun c c' => c.1 < c'.1 := by
  induction m with
  | nil => simp [list]
  | cons c rest ih =>
    rw [List.pairwise_cons] at hs
    simp only [list]
    split
    · next hlt =>
      refine List.pairwise_cons.2 ⟨fun c' hc' => ?_, List.pairwise_cons.2 hs⟩
      rcases List.mem_cons.1 hc' with h | h
      · simpa [h] using hlt
      · exact lt_trans hlt (hs.1 _ h)
    · next hlt =>
      refine List.pairwise_cons.2 ⟨fun c' hc' => ?_, ih hs.2 fun c hc => ha c (by simp [hc])⟩
      rcases mem_list hc' with h | h
      · have := ha c (by simp)
        rw [h]
        exact lt_of_le_of_ne (Nat.not_lt.1 hlt) this
      · exact hs.1 _ h

/-- A write inside the address space keeps the canonical form. -/
theorem wf_put {d : Nat → Byte} {m : Memory} (h : wf d m) {a : Nat} (ha : a < 4096) (b : Byte) :
    wf d (put (d a) a b m) := by
  obtain ⟨hs, hm⟩ := h
  have hs' : (unlist a m).Pairwise fun c c' => c.1 < c'.1 := hs.filter _
  have hm' : ∀ c ∈ unlist a m, c.1 < 4096 ∧ c.2 ≠ d c.1 := fun c hc => hm c (List.mem_of_mem_filter hc)
  unfold put
  split
  · exact ⟨hs', hm'⟩
  · next hb =>
    refine ⟨pairwise_list hs' (by simp [unlist]), fun c hc => ?_⟩
    rcases mem_list hc with h | h
    · subst h; exact ⟨ha, hb⟩
    · exact hm' c h

end Memory

theorem State.byteAt_putByte (s : State) (a a' : Nat) (b : Byte) :
    (s.putByte a b).byteAt a' = if a' = a then b else s.byteAt a' :=
  Memory.get_put s.cfg.initialByte a a' b s.mem

/-- Writing bytes changes memory only. -/
theorem State.putBytes_eq (s : State) (a : Nat) (bs : List Byte) :
    s.putBytes a bs = { s with mem := (s.putBytes a bs).mem } := by
  induction bs generalizing s a with
  | nil => rfl
  | cons b bs ih => rw [State.putBytes, ih]; rfl

@[simp] theorem State.putBytes_cfg (s : State) (a : Nat) (bs : List Byte) : (s.putBytes a bs).cfg = s.cfg := by
  rw [State.putBytes_eq]

/-- The bytes written read back, every other byte reads as before. -/
theorem State.byteAt_putBytes (s : State) (a a' : Nat) (bs : List Byte) :
    (s.putBytes a bs).byteAt a' =
      if h : a ≤ a' ∧ a' < a + bs.length then bs[a' - a]'(by omega) else s.byteAt a' := by
  induction bs generalizing s a with
  | nil => rw [dif_neg (by simp)]; rfl
  | cons b bs ih =>
    rw [State.putBytes, ih, State.byteAt_putByte]
    by_cases h0 : a' = a
    · subst h0; simp
    · by_cases h1 : a + 1 ≤ a' ∧ a' < a + 1 + bs.length
      · rw [dif_pos h1, dif_pos (by simp only [List.length_cons]; omega)]
        have : a' - a = (a' - (a + 1)) + 1 := by omega
        simp [this]
      · rw [dif_neg h1, dif_neg (by simp only [List.length_cons]; omega), if_neg h0]

theorem State.wf_putByte {s : State} (h : Memory.wf s.cfg.initialByte s.mem) {a : Nat} (ha : a < 4096) (b : Byte) :
    Memory.wf (s.putByte a b).cfg.initialByte (s.putByte a b).mem := Memory.wf_put h ha b

/-- Writing bytes inside the address space keeps the canonical form. -/
theorem State.wf_putBytes {s : State} (h : Memory.wf s.cfg.initialByte s.mem) {a : Nat} {bs : List Byte}
    (ha : a + bs.length ≤ 4096) : Memory.wf (s.putBytes a bs).cfg.initialByte (s.putBytes a bs).mem := by
  induction bs generalizing s a with
  | nil => exact h
  | cons b bs ih =>
    simp only [List.length_cons] at ha
    exact ih (State.wf_putByte h (by omega) b) (by omega)

@[simp] theorem State.length_bytesAt (s : State) (a n : Nat) : (s.bytesAt a n).length = n := by
  induction n generalizing a with
  | zero => rfl
  | succ n ih => simp [State.bytesAt, ih]

theorem State.getElem_bytesAt (s : State) (a n k : Nat) (h : k < (s.bytesAt a n).length) :
    (s.bytesAt a n)[k] = s.byteAt (a + k) := by
  induction n generalizing a k with
  | zero => simp [State.bytesAt] at h
  | succ n ih =>
    cases k with
    | zero => simp [State.bytesAt]
    | succ k =>
      simp only [State.bytesAt, List.getElem_cons_succ]
      rw [ih]
      congr 1
      omega

/-- A store that answers wrote the bytes and nothing else, inside the address space. -/
theorem State.storeBytes_ok {s t : State} {a : Nat} {bs : List Byte} (h : s.storeBytes a bs = .ok t) :
    t = s.putBytes a bs ∧ (bs ≠ [] → a + bs.length ≤ 4096) := by
  unfold State.storeBytes at h
  split at h
  · cases h
  · split at h
    · cases h
    · next h1 _ =>
      refine ⟨(Except.ok.inj h).symm, fun hne => ?_⟩
      have : 0 < bs.length := List.length_pos_iff.2 hne
      omega

/-- A load that answers read the bytes, inside the address space. -/
theorem State.loadBytes_ok {s : State} {a n : Nat} {bs : List Byte} (h : s.loadBytes a n = .ok bs) :
    bs = s.bytesAt a n ∧ (0 < n → a + n ≤ 4096) := by
  unfold State.loadBytes at h
  split at h
  · cases h
  · exact ⟨(Except.ok.inj h).symm, fun _ => by omega⟩

/-- The one-byte store is MemWrite (20_memory.md R55). -/
theorem State.storeBytes_one (s : State) (a : Nat) (b : Byte) : s.storeBytes a [b] = s.memWrite a b := by
  unfold State.storeBytes State.memWrite checkWrite
  by_cases h1 : 0xFFF < a
  · simp [h1]
  · by_cases h2 : s.cfg.fontWritable = false ∧ a ≤ 0x04F
    · simp [h1, h2]
    · simp [h1, h2]
      rfl

/-- The one-byte load is MemRead (20_memory.md R53). -/
theorem State.loadBytes_one (s : State) (a : Nat) :
    s.loadBytes a 1 = (s.memRead a).map fun b => [b] := by
  unfold State.loadBytes State.memRead
  by_cases h : 0xFFF < a <;> simp [h, Except.map, State.bytesAt]

/-! ## Faults -/

/-- What the end of an instruction that may raise can be: its state, or the fault taken in the state before it. -/
theorem State.settle_next {s t : State} {i : Instr} {r : Except Raise State} (h : s.settle i r = .next t) :
    r = .ok t ∨ ∃ e, r = .error e ∧ t = s.enterFault e.kind (some (encode s.cfg i)) := by
  cases r with
  | ok s' => exact .inl (congrArg _ (Host.Outcome.next.inj h))
  | error e => exact .inr ⟨e, rfl, (Host.Outcome.next.inj h).symm⟩

@[simp] theorem State.settle_ok (s t : State) (i : Instr) : s.settle i (.ok t) = .next t := rfl

@[simp] theorem State.settle_error (s : State) (i : Instr) (e : Raise) :
    s.settle i (.error e) = .next (s.enterFault e.kind (some (encode s.cfg i))) := rfl

end Sys2Proof.Machine
end

