-- ==== Sys2Proof/Laws/Exec.lean ====
section
/-! SUPPORT. What each instruction that may fault can do, said once, and what the shared endings of the others do. -/

namespace Sys2Proof.Machine

/-! ## Registers -/

theorem State.readReg_finish (s : State) (x r : Nibble) (b : Byte) :
    (s.finish x b).readReg r = if r = x then b else s.readReg r := by
  simp [State.finish, State.readReg_writeReg]

theorem State.readReg_finishFlag (s : State) (x r : Nibble) (b : Byte) (f : Bool) :
    (s.finishFlag x b f).readReg r = if r = vF then flagByte f else if r = x then b else s.readReg r := by
  simp [State.finishFlag, State.readReg_writeReg]

theorem State.onlyRegsPc_finish (s : State) (x : Nibble) (b : Byte) : s.OnlyRegsPc (s.finish x b) :=
  ⟨fun _ => rfl, rfl⟩

theorem State.onlyRegsPc_finishFlag (s : State) (x : Nibble) (b : Byte) (f : Bool) :
    s.OnlyRegsPc (s.finishFlag x b f) := ⟨fun _ => rfl, rfl⟩

theorem State.readReg_drawAt (s : State) (x y r : Nibble) (bs : List Byte) :
    (s.drawAt x y bs).readReg r = if r = vF then
      flagByte (drawSprite s.screen ((s.readReg x).toNat % 64) ((s.readReg y).toNat % 32) bs).2 else s.readReg r := by
  simp only [State.drawAt, State.advance_readReg, State.writeFlag_eq, State.readReg_writeReg]; rfl

@[simp] theorem State.length_regsThrough (s : State) (x : Nibble) : (s.regsThrough x).length = x.toNat + 1 := by
  have := x.isLt; simp [State.regsThrough, regCount]; omega

theorem State.getElem_regsThrough (s : State) (x r : Nibble) (h : r.toNat < (s.regsThrough x).length) :
    (s.regsThrough x)[r.toNat] = s.readReg r := by
  simp [State.regsThrough, State.readReg]

@[simp] theorem length_bcdDigits (b : Byte) : (bcdDigits b).length = 3 := rfl

/-- The end of Fx55 and Fx65 writes I alone. -/
theorem State.bumpIndex_eq (s : State) (x : Nibble) : s.bumpIndex x = { s with idx := (s.bumpIndex x).idx } := by
  unfold State.bumpIndex; split <;> rfl

theorem State.bumpIndex_idx (s : State) (x : Nibble) (h : s.indexAddr + x.toNat ≤ 0xFFF) :
    (s.bumpIndex x).idx.toNat = if s.cfg.lsIndexInc then s.indexAddr + x.toNat + 1 else s.indexAddr := by
  unfold State.bumpIndex State.indexAddr regCount at *
  split
  · simp [BitVec.toNat_add]; omega
  · rfl

theorem subResult_toInt (a b : Byte) : ((subResult a b).toNat : Int) = ((a.toNat : Int) - b.toNat) % 256 := by
  simp only [subResult, BitVec.toNat_ofInt]; omega

/-! ## When memory answers -/

theorem State.loadBytes_of_le (s : State) (a n : Nat) (h : n = 0 ∨ a + (n - 1) ≤ 0xFFF) :
    s.loadBytes a n = .ok (s.bytesAt a n) := by
  unfold State.loadBytes; rw [if_neg (by omega)]

theorem State.loadBytes_of_range (s : State) (a n : Nat) (h : 1 ≤ n) (h' : 0xFFF < a + (n - 1)) :
    s.loadBytes a n = .error ⟨.memRange, a + n - 1⟩ := by
  unfold State.loadBytes; rw [if_pos (by omega)]

theorem State.storeBytes_of_le (s : State) (a n : Nat) (bs : List Byte) (hl : bs.length = n + 1) (h1 : a + n ≤ 0xFFF)
    (h2 : s.cfg.fontWritable = true ∨ 0x04F < a) : s.storeBytes a bs = .ok (s.putBytes a bs) := by
  unfold State.storeBytes
  rw [if_neg (by omega), if_neg]
  rintro ⟨-, h, h'⟩
  rcases h2 with h2 | h2
  · simp [h] at h2
  · omega

theorem State.storeBytes_of_range (s : State) (a n : Nat) (bs : List Byte) (hl : bs.length = n + 1)
    (h1 : 0xFFF < a + n) : s.storeBytes a bs = .error ⟨.memRange, a + n⟩ := by
  unfold State.storeBytes
  rw [if_pos (by omega), hl]; rfl

theorem State.storeBytes_of_font (s : State) (a n : Nat) (bs : List Byte) (hl : bs.length = n + 1)
    (hn : a + n ≤ 0xFFF) (h1 : s.cfg.fontWritable = false) (h2 : a ≤ 0x04F) :
    s.storeBytes a bs = .error ⟨.fontWrite, a⟩ := by
  unfold State.storeBytes
  rw [if_neg (by omega), if_pos ⟨by omega, h1, h2⟩]

/-! ## What an instruction that may fault can do -/

/-- The state an instruction leaves when it takes fault `k` (60_exceptions.md R211). -/
abbrev State.faulted (s : State) (k : FaultKind) (i : Instr) : State := s.enterFault k (some (encode s.cfg i))

theorem execRet_cases {s t : State} (h : execRet s = .next t) :
    (s.sp.toNat = 0 ∧ t = s.faulted .stackUnderflow .ret) ∨
    ∃ (j : Nat) (hj : j < 16), s.sp.toNat = j + 1 ∧
      t = { s with sp := BitVec.ofNat 8 j, pc := (s.stack[j]).zeroExtend 16 + 2 } := by
  unfold execRet at h
  split at h
  · next h0 => exact .inl ⟨by simp [h0], (Host.Outcome.next.inj h).symm⟩
  · split at h
    · next h0 h1 =>
      have hp : s.sp.toNat ≠ 0 := fun hc => h0 (BitVec.eq_of_toNat_eq (by simpa using hc))
      have hlt := s.sp.isLt
      refine .inr ⟨s.sp.toNat - 1, h1, by omega, ?_⟩
      have hsp : s.sp - 1 = BitVec.ofNat 8 (s.sp.toNat - 1) := by
        apply BitVec.eq_of_toNat_eq
        have h1' : (1 : Byte).toNat = 1 := rfl
        simp only [BitVec.toNat_sub, BitVec.toNat_ofNat, h1']
        omega
      rw [← hsp]
      exact (Host.Outcome.next.inj h).symm
    · cases h

theorem execCall_cases {nnn : Addr} {s t : State} (h : execCall nnn s = .next t) :
    (s.sp.toNat = 16 ∧ t = s.faulted .stackOverflow (.call nnn)) ∨
    ∃ hj : s.sp.toNat < 16, t = { s with
      stack := s.stack.set s.sp.toNat (s.pc.setWidth 12), sp := s.sp + 1, pc := nnn.zeroExtend 16 } := by
  unfold execCall at h
  split at h
  · next h0 => exact .inl ⟨by simp [h0], (Host.Outcome.next.inj h).symm⟩
  · split at h
    · next h0 h1 => exact .inr ⟨h1, (Host.Outcome.next.inj h).symm⟩
    · cases h

theorem execAddIVx_cases {x : Nibble} {s t : State} (h : execAddIVx x s = .next t) :
    (0xFFFF < s.idx.toNat + (s.readReg x).toNat ∧ t = s.faulted .indexOverflow (.addIVx x)) ∨
    (s.idx.toNat + (s.readReg x).toNat ≤ 0xFFFF ∧ t = { s with
      idx := BitVec.ofNat 16 (s.idx.toNat + (s.readReg x).toNat), pc := s.pc + 2 }) := by
  unfold execAddIVx at h
  split at h
  · next h0 => exact .inl ⟨h0, (Host.Outcome.next.inj h).symm⟩
  · next h0 => exact .inr ⟨by omega, (Host.Outcome.next.inj h).symm⟩

theorem execDrw_cases {x y n : Nibble} {s t : State} (h : execDrw x y n s = .next t) :
    (1 ≤ n.toNat ∧ 0xFFF < s.indexAddr + (n.toNat - 1) ∧ t = s.faulted .memRange (.drw x y n)) ∨
    ((n.toNat = 0 ∨ s.indexAddr + (n.toNat - 1) ≤ 0xFFF) ∧ t = s.drawAt x y (s.bytesAt s.indexAddr n.toNat)) := by
  by_cases h0 : n.toNat = 0 ∨ s.indexAddr + (n.toNat - 1) ≤ 0xFFF
  · simp only [execDrw, s.loadBytes_of_le _ _ h0, State.settle_ok] at h
    exact .inr ⟨h0, (Host.Outcome.next.inj h).symm⟩
  · simp only [execDrw, s.loadBytes_of_range s.indexAddr n.toNat (by omega) (by omega), State.settle_error] at h
    exact .inl ⟨by omega, by omega, (Host.Outcome.next.inj h).symm⟩

theorem execLdVxMem_cases {x : Nibble} {s t : State} (h : execLdVxMem x s = .next t) :
    (0xFFF < s.indexAddr + x.toNat ∧ t = s.faulted .memRange (.ldVxMem x)) ∨
    (s.indexAddr + x.toNat ≤ 0xFFF ∧
      t = ((s.writeRegsThrough x (s.bytesAt s.indexAddr (regCount x))).bumpIndex x).advance) := by
  by_cases h0 : s.indexAddr + x.toNat ≤ 0xFFF
  · simp only [execLdVxMem, s.loadBytes_of_le _ (regCount x) (by simp [regCount]; omega), State.settle_ok] at h
    exact .inr ⟨h0, (Host.Outcome.next.inj h).symm⟩
  · simp only [execLdVxMem, s.loadBytes_of_range s.indexAddr (regCount x) (by simp [regCount]) (by simp [regCount]; omega),
      State.settle_error] at h
    exact .inl ⟨by omega, (Host.Outcome.next.inj h).symm⟩

/-- An instruction that may raise a fault answers a next state. -/
theorem State.settle_answers (s : State) (i : Instr) (r : Except Raise State) : ∃ t, s.settle i r = .next t := by
  cases r <;> exact ⟨_, rfl⟩

/-- A store of `n + 1` bytes inside an instruction: the range fault, the font fault, or the bytes written. -/
theorem settle_storeBytes_cases {i : Instr} {s t : State} {n : Nat} {bs : List Byte} {f : State → State}
    (hl : bs.length = n + 1)
    (h : s.settle i (match s.storeBytes s.indexAddr bs with
      | .error r => .error r
      | .ok t => .ok (f t)) = .next t) :
    (0xFFF < s.indexAddr + n ∧ t = s.faulted .memRange i) ∨
    (s.indexAddr + n ≤ 0xFFF ∧ s.cfg.fontWritable = false ∧ s.indexAddr ≤ 0x04F ∧ t = s.faulted .fontWrite i) ∨
    (s.indexAddr + n ≤ 0xFFF ∧ (s.cfg.fontWritable = true ∨ 0x04F < s.indexAddr) ∧
      t = f (s.putBytes s.indexAddr bs)) := by
  by_cases h0 : s.indexAddr + n ≤ 0xFFF
  · by_cases h1 : s.cfg.fontWritable = true ∨ 0x04F < s.indexAddr
    · rw [s.storeBytes_of_le _ n bs hl h0 h1] at h
      exact .inr (.inr ⟨h0, h1, (Host.Outcome.next.inj h).symm⟩)
    · rw [not_or, Bool.not_eq_true] at h1
      rw [s.storeBytes_of_font _ n bs hl h0 h1.1 (by omega)] at h
      exact .inr (.inl ⟨h0, h1.1, by omega, (Host.Outcome.next.inj h).symm⟩)
  · rw [s.storeBytes_of_range _ n bs hl (by omega)] at h
    exact .inl ⟨by omega, (Host.Outcome.next.inj h).symm⟩

theorem execLdBVx_cases {x : Nibble} {s t : State} (h : execLdBVx x s = .next t) :
    (0xFFF < s.indexAddr + 2 ∧ t = s.faulted .memRange (.ldBVx x)) ∨
    (s.indexAddr + 2 ≤ 0xFFF ∧ s.cfg.fontWritable = false ∧ s.indexAddr ≤ 0x04F ∧
      t = s.faulted .fontWrite (.ldBVx x)) ∨
    (s.indexAddr + 2 ≤ 0xFFF ∧ (s.cfg.fontWritable = true ∨ 0x04F < s.indexAddr) ∧
      t = (s.putBytes s.indexAddr (bcdDigits (s.readReg x))).advance) :=
  settle_storeBytes_cases (length_bcdDigits _) h

theorem execLdMemVx_cases {x : Nibble} {s t : State} (h : execLdMemVx x s = .next t) :
    (0xFFF < s.indexAddr + x.toNat ∧ t = s.faulted .memRange (.ldMemVx x)) ∨
    (s.indexAddr + x.toNat ≤ 0xFFF ∧ s.cfg.fontWritable = false ∧ s.indexAddr ≤ 0x04F ∧
      t = s.faulted .fontWrite (.ldMemVx x)) ∨
    (s.indexAddr + x.toNat ≤ 0xFFF ∧ (s.cfg.fontWritable = true ∨ 0x04F < s.indexAddr) ∧
      t = ((s.putBytes s.indexAddr (s.regsThrough x)).bumpIndex x).advance) :=
  settle_storeBytes_cases (f := fun t => (t.bumpIndex x).advance) (s.length_regsThrough x) h

/-! ## Keys and timers -/

/-- The key test in the integers the host gives (45_timers_keys.md R190; 10_state.md R41). -/
theorem State.keyIs_iff (s : State) (b : Byte) :
    s.keyIs b = true ↔ ∃ k : Int, s.keyIn = some k ∧ 0 ≤ k ∧ k ≤ 15 ∧ k = b.toNat := by
  unfold State.keyIs State.key sampleKey
  cases hk : s.keyIn with
  | none => simp
  | some k =>
    by_cases h : 0 ≤ k ∧ k ≤ 15
    · simp only [h, and_self, ↓reduceDIte, decide_eq_true_eq, Option.some.injEq, exists_eq_left', true_and]
      obtain ⟨h1, h2⟩ := h
      constructor
      · intro hb; rw [← hb]; simp [keyByte]; omega
      · intro hb; apply BitVec.eq_of_toNat_eq; simp [keyByte]; omega
    · simp [h]; omega

theorem toNat_countDown (b : Byte) : (countDown b).toNat = b.toNat - 1 := by
  have := b.isLt; simp [countDown]; omega

theorem countDown_eq_zero (b : Byte) : countDown b = 0 ↔ b.toNat ≤ 1 := by
  rw [← BitVec.toNat_inj, toNat_countDown]; simp; omega

/-- A tick keeps "an inactive timer is at 0" (10_state.md R27). -/
theorem Timer.tick_ok {t : Timer} (h : t.ok) : t.tick.ok := by
  unfold Timer.tick
  split
  · intro h'; simpa using h'
  · exact h

/-! ## The step -/

/-- With the stack pointer in its range every instruction answers a next state. -/
theorem exec_answers {i : Instr} {s : State} (hi : s.sp.toNat ≤ 16) : ∃ t, exec i s = .next t := by
  cases i
  case ret =>
    by_cases h : s.sp = 0
    · exact ⟨_, by simp only [exec, execRet, if_pos h]; rfl⟩
    · exact ⟨_, by simp only [exec, execRet, if_neg h]; rw [dif_pos (by omega)]; rfl⟩
  case call nnn =>
    by_cases h : s.sp = 16
    · exact ⟨_, by simp only [exec, execCall, if_pos h]; rfl⟩
    · have : s.sp.toNat ≠ 16 := fun hc => h (BitVec.eq_of_toNat_eq hc)
      exact ⟨_, by simp only [exec, execCall, if_neg h]; rw [dif_pos (by omega)]; rfl⟩
  case addIVx => exact State.settle_answers ..
  case drw => exact State.settle_answers ..
  case ldBVx => exact State.settle_answers ..
  case ldMemVx => exact State.settle_answers ..
  case ldVxMem => exact State.settle_answers ..
  all_goals exact ⟨_, rfl⟩

/-- When the next transaction is a step of the core, `step` is that step. -/
theorem step_eq_cpuStep {s u : State} (h : s.NextIsStep u) : step s = cpuStep u := by
  obtain ⟨h1, h2, ⟨h3, rfl⟩ | ⟨k, rest, h3, rfl⟩⟩ := h <;> simp [step, nextTransaction, h1, h2, h3, transact]

theorem State.fetch_of_le {s : State} (h : s.pc.toNat ≤ 0xFFE) :
    s.fetch = some (s.byteAt s.pc.toNat ++ s.byteAt (s.pc.toNat + 1) : BitVec 16) := by
  unfold State.fetch; rw [if_neg (by omega)]; rfl

theorem State.fetch_of_lt {s : State} (h : 0xFFE < s.pc.toNat) : s.fetch = none := by
  unfold State.fetch; rw [if_pos h]

/-- Phase B's three ends: the fetch fault, the decode fault, or the instruction executed. -/
theorem fetchExecute_cases {s t : State} (h : fetchExecute s = .next t) :
    (0xFFE < s.pc.toNat ∧ t = s.begin.enterFault .fetchRange none) ∨
    ∃ op : Word, s.pc.toNat ≤ 0xFFE ∧ op = (s.byteAt s.pc.toNat ++ s.byteAt (s.pc.toNat + 1) : BitVec 16) ∧
      ((decode s.cfg op = none ∧ t = s.begin.enterFault .decode (some op)) ∨
        ∃ i, decode s.cfg op = some i ∧ exec i s.begin = .next t) := by
  unfold fetchExecute at h
  by_cases hp : s.pc.toNat ≤ 0xFFE
  · rw [State.fetch_of_le hp] at h
    refine .inr ⟨_, hp, rfl, ?_⟩
    simp only [decodeExecute, State.begin] at h
    cases hd : decode s.cfg (s.byteAt s.pc.toNat ++ s.byteAt (s.pc.toNat + 1)) with
    | none => rw [hd] at h; exact .inl ⟨rfl, (Host.Outcome.next.inj h).symm⟩
    | some i => rw [hd] at h; exact .inr ⟨i, rfl, h⟩
  · rw [State.fetch_of_lt (by omega)] at h
    exact .inl ⟨by omega, (Host.Outcome.next.inj h).symm⟩

/-- What a step of the core can be. -/
theorem cpuStep_cases {s t : State} (h : cpuStep s = .next t) :
    t = s ∨ (s.status = .running ∧ fetchExecute s = .next t) ∨
    ∃ k, s.status = .waiting ∧ s.key = some k ∧ fetchExecute (s.commitKey k) = .next t := by
  unfold cpuStep at h
  split at h
  · exact .inl (Host.Outcome.next.inj h).symm
  · exact .inl (Host.Outcome.next.inj h).symm
  · next hs =>
    split at h
    · exact .inl (Host.Outcome.next.inj h).symm
    · next k hk => exact .inr (.inr ⟨k, hs, hk, h⟩)
  · next hs => exact .inr (.inl ⟨hs, h⟩)

/-! ## Runs -/

/-- A property that every step keeps, and from which no step ends in `.fault`, makes every run safe. -/
theorem safeRun_of_step {P : State → Prop} (hk : ∀ s t, P s → step s = .next t → P t)
    (hf : ∀ s r, P s → step s ≠ .fault r) {s : State} (hs : P s) (k : Nat) : s.SafeRun k := by
  induction k generalizing s with
  | zero => intro r h; cases h
  | succ k ih =>
    intro r h
    simp only [Host.Core.run] at h
    cases hst : step s with
    | next t => rw [show Sys2Proof.core.step s = .next t from hst] at h; exact ih (hk s t hs hst) r h
    | fault r' => exact hf s r' hs hst
    | refused r' => rw [show Sys2Proof.core.step s = .refused r' from hst] at h; cases h

end Sys2Proof.Machine
end

