-- ==== Sys2Proof/Laws/PerInstr.lean ====
section
/-! SUPPORT. Families of lemmas stated for every instruction, one lemma per constructor. -/

namespace Sys2Proof.Laws.OnItsRow

/-- The instruction's opcode selects a row of the table of its own kind, whatever its operands; HALT's row is the
configuration's (30_encoding.md R81). -/
def Statement (i : Instr) : Prop :=
  ∀ c : Config, i.wellFormed c = true →
    ∃ r ∈ c.opcodeTable, r.kind = i.kind ∧ encode c i &&& r.mask = r.value

/-- A row that is always in the table. -/
theorem of_row {c : Config} {op : Word} {k : Kind} (mask value : Word)
    (hr : (⟨mask, value, k, false⟩ : OpcodeRow) ∈ opcodeRows) (hm : op &&& mask = value) :
    ∃ r ∈ c.opcodeTable, r.kind = k ∧ op &&& r.mask = r.value :=
  ⟨_, List.mem_append_left _ (List.mem_filter.2 ⟨hr, by simp⟩), rfl, hm⟩

/-- A row that is in the table with FULL_ALU. -/
theorem of_fullAlu_row {c : Config} {op : Word} {k : Kind} (mask value : Word) (hc : c.fullAlu = true)
    (hr : (⟨mask, value, k, true⟩ : OpcodeRow) ∈ opcodeRows) (hm : op &&& mask = value) :
    ∃ r ∈ c.opcodeTable, r.kind = k ∧ op &&& r.mask = r.value :=
  ⟨_, List.mem_append_left _ (List.mem_filter.2 ⟨hr, by simp [hc]⟩), rfl, hm⟩

theorem cls : Statement (.cls) := fun _ _ =>
  of_row (k := .CLS) 0xFFFF 0x00E0 (by decide) (by simp [encode])

theorem ret : Statement (.ret) := fun _ _ =>
  of_row (k := .RET) 0xFFFF 0x00EE (by decide) (by simp [encode])

theorem jp (nnn : Addr) : Statement (.jp nnn) := fun _ _ =>
  of_row (k := .JP) 0xF000 0x1000 (by decide) ((and_major _ 0x1).2 (fieldMajor_encodeA ..))

theorem call (nnn : Addr) : Statement (.call nnn) := fun _ _ =>
  of_row (k := .CALL) 0xF000 0x2000 (by decide) ((and_major _ 0x2).2 (fieldMajor_encodeA ..))

theorem seImm (x : Nibble) (kk : Byte) : Statement (.seImm x kk) := fun _ _ =>
  of_row (k := .SE_IMM) 0xF000 0x3000 (by decide) ((and_major _ 0x3).2 (fieldMajor_encodeXK ..))

theorem sneImm (x : Nibble) (kk : Byte) : Statement (.sneImm x kk) := fun _ _ =>
  of_row (k := .SNE_IMM) 0xF000 0x4000 (by decide) ((and_major _ 0x4).2 (fieldMajor_encodeXK ..))

theorem seReg (x y : Nibble) : Statement (.seReg x y) := fun _ _ =>
  of_row (k := .SE_REG) 0xF00F 0x5000 (by decide)
    ((and_major_low _ 0x5 0x0).2 ⟨fieldMajor_encodeXYN .., fieldN_encodeXYN ..⟩)

theorem sneReg (x y : Nibble) : Statement (.sneReg x y) := fun _ _ =>
  of_row (k := .SNE_REG) 0xF00F 0x9000 (by decide)
    ((and_major_low _ 0x9 0x0).2 ⟨fieldMajor_encodeXYN .., fieldN_encodeXYN ..⟩)

theorem ldImm (x : Nibble) (kk : Byte) : Statement (.ldImm x kk) := fun _ _ =>
  of_row (k := .LD_IMM) 0xF000 0x6000 (by decide) ((and_major _ 0x6).2 (fieldMajor_encodeXK ..))

theorem addImm (x : Nibble) (kk : Byte) : Statement (.addImm x kk) := fun _ _ =>
  of_row (k := .ADD_IMM) 0xF000 0x7000 (by decide) ((and_major _ 0x7).2 (fieldMajor_encodeXK ..))

theorem ldReg (x y : Nibble) : Statement (.ldReg x y) := fun _ _ =>
  of_row (k := .LD_REG) 0xF00F 0x8000 (by decide)
    ((and_major_low _ 0x8 0x0).2 ⟨fieldMajor_encodeXYN .., fieldN_encodeXYN ..⟩)

theorem andReg (x y : Nibble) : Statement (.andReg x y) := fun _ _ =>
  of_row (k := .AND) 0xF00F 0x8002 (by decide)
    ((and_major_low _ 0x8 0x2).2 ⟨fieldMajor_encodeXYN .., fieldN_encodeXYN ..⟩)

theorem sub (x y : Nibble) : Statement (.sub x y) := fun _ _ =>
  of_row (k := .SUB) 0xF00F 0x8005 (by decide)
    ((and_major_low _ 0x8 0x5).2 ⟨fieldMajor_encodeXYN .., fieldN_encodeXYN ..⟩)

theorem orReg (x y : Nibble) : Statement (.orReg x y) := fun _ h =>
  of_fullAlu_row (k := .OR) 0xF00F 0x8001 h (by decide)
    ((and_major_low _ 0x8 0x1).2 ⟨fieldMajor_encodeXYN .., fieldN_encodeXYN ..⟩)

theorem xorReg (x y : Nibble) : Statement (.xorReg x y) := fun _ h =>
  of_fullAlu_row (k := .XOR) 0xF00F 0x8003 h (by decide)
    ((and_major_low _ 0x8 0x3).2 ⟨fieldMajor_encodeXYN .., fieldN_encodeXYN ..⟩)

theorem addReg (x y : Nibble) : Statement (.addReg x y) := fun _ h =>
  of_fullAlu_row (k := .ADD_REG) 0xF00F 0x8004 h (by decide)
    ((and_major_low _ 0x8 0x4).2 ⟨fieldMajor_encodeXYN .., fieldN_encodeXYN ..⟩)

theorem shr (x y : Nibble) : Statement (.shr x y) := fun _ h =>
  of_fullAlu_row (k := .SHR) 0xF00F 0x8006 h (by decide)
    ((and_major_low _ 0x8 0x6).2 ⟨fieldMajor_encodeXYN .., fieldN_encodeXYN ..⟩)

theorem subn (x y : Nibble) : Statement (.subn x y) := fun _ h =>
  of_fullAlu_row (k := .SUBN) 0xF00F 0x8007 h (by decide)
    ((and_major_low _ 0x8 0x7).2 ⟨fieldMajor_encodeXYN .., fieldN_encodeXYN ..⟩)

theorem shl (x y : Nibble) : Statement (.shl x y) := fun _ h =>
  of_fullAlu_row (k := .SHL) 0xF00F 0x800E h (by decide)
    ((and_major_low _ 0x8 0xE).2 ⟨fieldMajor_encodeXYN .., fieldN_encodeXYN ..⟩)

theorem ldI (nnn : Addr) : Statement (.ldI nnn) := fun _ _ =>
  of_row (k := .LD_I) 0xF000 0xA000 (by decide) ((and_major _ 0xA).2 (fieldMajor_encodeA ..))

theorem rnd (x : Nibble) (kk : Byte) : Statement (.rnd x kk) := fun _ _ =>
  of_row (k := .RND) 0xF000 0xC000 (by decide) ((and_major _ 0xC).2 (fieldMajor_encodeXK ..))

theorem drw (x y n : Nibble) : Statement (.drw x y n) := fun _ _ =>
  of_row (k := .DRW) 0xF000 0xD000 (by decide) ((and_major _ 0xD).2 (fieldMajor_encodeXYN ..))

theorem skp (x : Nibble) : Statement (.skp x) := fun _ _ =>
  of_row (k := .SKP) 0xF0FF 0xE09E (by decide) ((and_major_byte _ 0xE 0x9E).2 ⟨fieldMajor_encodeXK .., fieldKk_encodeXK ..⟩)

theorem sknp (x : Nibble) : Statement (.sknp x) := fun _ _ =>
  of_row (k := .SKNP) 0xF0FF 0xE0A1 (by decide) ((and_major_byte _ 0xE 0xA1).2 ⟨fieldMajor_encodeXK .., fieldKk_encodeXK ..⟩)

theorem ldVxDt (x : Nibble) : Statement (.ldVxDt x) := fun _ _ =>
  of_row (k := .LD_VX_DT) 0xF0FF 0xF007 (by decide) ((and_major_byte _ 0xF 0x07).2 ⟨fieldMajor_encodeXK .., fieldKk_encodeXK ..⟩)

theorem ldVxK (x : Nibble) : Statement (.ldVxK x) := fun _ _ =>
  of_row (k := .LD_VX_K) 0xF0FF 0xF00A (by decide) ((and_major_byte _ 0xF 0x0A).2 ⟨fieldMajor_encodeXK .., fieldKk_encodeXK ..⟩)

theorem ldDtVx (x : Nibble) : Statement (.ldDtVx x) := fun _ _ =>
  of_row (k := .LD_DT_VX) 0xF0FF 0xF015 (by decide) ((and_major_byte _ 0xF 0x15).2 ⟨fieldMajor_encodeXK .., fieldKk_encodeXK ..⟩)

theorem ldStVx (x : Nibble) : Statement (.ldStVx x) := fun _ _ =>
  of_row (k := .LD_ST_VX) 0xF0FF 0xF018 (by decide) ((and_major_byte _ 0xF 0x18).2 ⟨fieldMajor_encodeXK .., fieldKk_encodeXK ..⟩)

theorem addIVx (x : Nibble) : Statement (.addIVx x) := fun _ _ =>
  of_row (k := .ADD_I_VX) 0xF0FF 0xF01E (by decide) ((and_major_byte _ 0xF 0x1E).2 ⟨fieldMajor_encodeXK .., fieldKk_encodeXK ..⟩)

theorem ldFVx (x : Nibble) : Statement (.ldFVx x) := fun _ _ =>
  of_row (k := .LD_F_VX) 0xF0FF 0xF029 (by decide) ((and_major_byte _ 0xF 0x29).2 ⟨fieldMajor_encodeXK .., fieldKk_encodeXK ..⟩)

theorem ldBVx (x : Nibble) : Statement (.ldBVx x) := fun _ _ =>
  of_row (k := .LD_B_VX) 0xF0FF 0xF033 (by decide) ((and_major_byte _ 0xF 0x33).2 ⟨fieldMajor_encodeXK .., fieldKk_encodeXK ..⟩)

theorem ldMemVx (x : Nibble) : Statement (.ldMemVx x) := fun _ _ =>
  of_row (k := .LD_MEM_VX) 0xF0FF 0xF055 (by decide) ((and_major_byte _ 0xF 0x55).2 ⟨fieldMajor_encodeXK .., fieldKk_encodeXK ..⟩)

theorem ldVxMem (x : Nibble) : Statement (.ldVxMem x) := fun _ _ =>
  of_row (k := .LD_VX_MEM) 0xF0FF 0xF065 (by decide) ((and_major_byte _ 0xF 0x65).2 ⟨fieldMajor_encodeXK .., fieldKk_encodeXK ..⟩)

theorem halt : Statement (.halt) := fun c h => by
  obtain ⟨w, hw⟩ := Option.isSome_iff_exists.1 h
  refine ⟨⟨0xFFFF, w, .HALT, false⟩, List.mem_append_right _ (by simp [haltRow, hw]), rfl, ?_⟩
  rw [show encode c .halt = w by simp [encode, hw]]
  exact BitVec.and_allOnes (x := w)

end Sys2Proof.Laws.OnItsRow
end

