-- ==== Sys2Proof/Laws/Screen.lean ====
section
/-! SUPPORT. What drawing a sprite does to every pixel and when it reports an erasure (44_display.md R172 to R174). -/

namespace Sys2Proof.Machine

theorem Screen.px_flip (p : Screen) (c c' : Fin 64) (r r' : Fin 32) :
    (p.flip c r).px c' r' = if c' = c ∧ r' = r then !p.px c r else p.px c' r' := by
  simp only [Screen.px, Screen.flip, Fin.getElem_fin, Vector.getElem_set]
  by_cases hr : r.val = r'.val
  · have : r = r' := Fin.ext hr
    subst this
    by_cases hc : c.val = c'.val
    · have : c = c' := Fin.ext hc
      subst this; simp
    · have : c' ≠ c := fun h => hc (by rw [h])
      simp [hc, this]
  · have : r' ≠ r := fun h => hr (by rw [h])
    simp [hr, this]

/-- Two screens with equal pixels are equal. -/
theorem Screen.ext_px {p q : Screen} (h : ∀ c r, p.px c r = q.px c r) : p = q := by
  apply Vector.ext
  intro r hr
  apply Vector.ext
  intro c hc
  exact h ⟨c, hc⟩ ⟨r, hr⟩

@[simp] theorem Screen.px_clear (c : Fin 64) (r : Fin 32) : Screen.clear.px c r = false := by
  simp [Screen.px, Screen.clear]

/-- Eight neighbouring columns are distinct mod 64 (44_display.md R172). -/
theorem spriteColumn_inj {x0 j k : Nat} (hj : j < 8) (hk : k < 8) (h : spriteColumn x0 j = spriteColumn x0 k) :
    j = k := by
  have := congrArg Fin.val h
  simp only [spriteColumn, Fin.val_ofNat] at this
  omega

/-- Column `c` is hit by a set bit of sprite byte `b` at one of the offsets `js`. -/
def rowHit (x0 : Nat) (b : Byte) (js : List Nat) (c : Fin 64) : Bool :=
  js.any fun j => b.getLsbD (7 - j) && decide (spriteColumn x0 j = c)

theorem rowHit_cons (x0 : Nat) (b : Byte) (j : Nat) (js : List Nat) (c : Fin 64) :
    rowHit x0 b (j :: js) c = ((b.getLsbD (7 - j) && decide (spriteColumn x0 j = c)) || rowHit x0 b js c) := by
  simp [rowHit]

theorem foldl_drawBit (x0 : Nat) (row : Fin 32) (b : Byte) (js : List Nat) (acc : Screen × Bool)
    (hjs : js.Pairwise fun j k => spriteColumn x0 j ≠ spriteColumn x0 k) :
    (∀ c r, (js.foldl (drawBit x0 row b) acc).1.px c r =
      (acc.1.px c r ^^ (decide (r = row) && rowHit x0 b js c))) ∧
    ((js.foldl (drawBit x0 row b) acc).2 = true ↔
      acc.2 = true ∨ ∃ c, acc.1.px c row = true ∧ rowHit x0 b js c = true) := by
  induction js generalizing acc with
  | nil => simp [rowHit]
  | cons j js ih =>
    rw [List.pairwise_cons] at hjs
    obtain ⟨ih1, ih2⟩ := ih (drawBit x0 row b acc j) hjs.2
    simp only [List.foldl_cons]
    by_cases hb : b.getLsbD (7 - j) = true
    · have hd : drawBit x0 row b acc j =
          (acc.1.flip (spriteColumn x0 j) row, acc.2 || acc.1.px (spriteColumn x0 j) row) := by
        simp only [drawBit, hb, if_true]
      rw [hd] at ih1 ih2
      have hno : rowHit x0 b js (spriteColumn x0 j) = false := by
        simp only [rowHit, List.any_eq_false, Bool.and_eq_true, decide_eq_true_eq, not_and]
        exact fun k hk _ h => hjs.1 k hk h.symm
      rw [hd]
      constructor
      · intro c r
        rw [ih1, Screen.px_flip]
        by_cases hr : r = row
        · subst hr
          by_cases hc : c = spriteColumn x0 j
          · subst hc
            simp [rowHit_cons, hno, hb]
          · simp [hc, rowHit_cons, hb, Ne.symm hc]
        · simp [hr]
      · rw [ih2]
        simp only [Bool.or_eq_true, Screen.px_flip]
        constructor
        · rintro ((h | h) | ⟨c, h1, h2⟩)
          · exact .inl h
          · exact .inr ⟨_, h, by simp [rowHit, hb]⟩
          · by_cases hc : c = spriteColumn x0 j
            · subst hc; rw [hno] at h2; cases h2
            · refine .inr ⟨c, by simpa [hc] using h1, ?_⟩
              simp only [rowHit, List.any_cons] at h2 ⊢
              simp [h2]
        · rintro (h | ⟨c, h1, h2⟩)
          · exact .inl (.inl h)
          · by_cases hc : c = spriteColumn x0 j
            · subst hc; exact .inl (.inr h1)
            · refine .inr ⟨c, by simpa [hc] using h1, ?_⟩
              simpa [rowHit, Ne.symm hc] using h2
    · have hd : drawBit x0 row b acc j = acc := by simp [drawBit, hb]
      rw [hd] at ih1 ih2 ⊢
      have : ∀ c, rowHit x0 b (j :: js) c = rowHit x0 b js c := by simp [rowHit, hb]
      simp only [this]
      exact ⟨ih1, ih2⟩

/-- Pixel (c, r) is hit by a set bit of the sprite `bs` drawn from column `x0` and row `y0`. -/
def spriteHit (x0 y0 : Nat) (bs : List Byte) (c : Fin 64) (r : Fin 32) : Bool :=
  decide (y0 ≤ r.val) && rowHit x0 (bs.getD (r.val - y0) 0) (List.range 8) c

@[simp] theorem rowHit_zero (x0 : Nat) (js : List Nat) (c : Fin 64) : rowHit x0 0#8 js c = false := by
  simp [rowHit]

/-- In the spec's own terms: bit `7 - j` of sprite byte `k` at column `(x0 + j) mod 64` and row `y0 + k`. -/
theorem spriteHit_iff (x0 y0 : Nat) (bs : List Byte) (c : Fin 64) (r : Fin 32) :
    spriteHit x0 y0 bs c r = true ↔
      ∃ (k j : Nat) (h : k < bs.length), j < 8 ∧ y0 + k = r.val ∧ (x0 + j) % 64 = c.val ∧
        (bs[k]).getLsbD (7 - j) = true := by
  simp only [spriteHit, rowHit, Bool.and_eq_true, decide_eq_true_eq, List.any_eq_true, List.mem_range]
  constructor
  · rintro ⟨hy, j, hj, hb, hc⟩
    by_cases hk : r.val - y0 < bs.length
    · refine ⟨r.val - y0, j, hk, hj, by omega, ?_, ?_⟩
      · rw [← hc]; simp [spriteColumn]
      · rw [List.getD_eq_getElem _ _ hk] at hb; exact hb
    · rw [List.getD_eq_default _ _ (by omega)] at hb
      simp at hb
  · rintro ⟨k, j, hk, hj, hy, hc, hb⟩
    have : r.val - y0 = k := by omega
    refine ⟨by omega, j, hj, ?_, Fin.ext ?_⟩
    · rw [this, List.getD_eq_getElem _ _ hk]; exact hb
    · simpa [spriteColumn] using hc

theorem drawByte_law (x0 : Nat) (row : Fin 32) (b : Byte) (acc : Screen × Bool) :
    (∀ c r, (drawByte x0 row b acc).1.px c r =
      (acc.1.px c r ^^ (decide (r = row) && rowHit x0 b (List.range 8) c))) ∧
    ((drawByte x0 row b acc).2 = true ↔
      acc.2 = true ∨ ∃ c, acc.1.px c row = true ∧ rowHit x0 b (List.range 8) c = true) := by
  refine foldl_drawBit x0 row b (List.range 8) acc ?_
  refine List.Pairwise.imp_of_mem ?_ (List.nodup_range (n := 8))
  intro j k hj hk hne h
  exact hne (spriteColumn_inj (List.mem_range.1 hj) (List.mem_range.1 hk) h)

theorem drawBytes_law (x0 y0 : Nat) (bs : List Byte) (acc : Screen × Bool) :
    (∀ c r, (drawBytes x0 y0 bs acc).1.px c r = (acc.1.px c r ^^ spriteHit x0 y0 bs c r)) ∧
    ((drawBytes x0 y0 bs acc).2 = true ↔
      acc.2 = true ∨ ∃ c r, acc.1.px c r = true ∧ spriteHit x0 y0 bs c r = true) := by
  induction bs generalizing y0 acc with
  | nil => simp [drawBytes, spriteHit]
  | cons b bs ih =>
    have hit : ∀ c (r : Fin 32), spriteHit x0 y0 (b :: bs) c r =
        ((decide (r.val = y0) && rowHit x0 b (List.range 8) c) || spriteHit x0 (y0 + 1) bs c r) := by
      intro c r
      simp only [spriteHit]
      rcases Nat.lt_trichotomy r.val y0 with h | h | h
      · simp [show ¬ y0 ≤ r.val by omega, show ¬ r.val = y0 by omega, show ¬ y0 + 1 ≤ r.val by omega]
      · simp [h]
      · have : r.val - y0 = (r.val - (y0 + 1)) + 1 := by omega
        simp [show y0 ≤ r.val by omega, show ¬ r.val = y0 by omega, show y0 + 1 ≤ r.val by omega, this]
    have excl : ∀ c (r : Fin 32), r.val = y0 → spriteHit x0 (y0 + 1) bs c r = false := by
      intro c r h
      simp [spriteHit, show ¬ y0 + 1 ≤ r.val by omega]
    rw [drawBytes]
    by_cases hrow : y0 < 32
    · obtain ⟨ih1, ih2⟩ := ih (y0 + 1) (drawByte x0 ⟨y0, hrow⟩ b acc)
      obtain ⟨d1, d2⟩ := drawByte_law x0 ⟨y0, hrow⟩ b acc
      rw [dif_pos hrow]
      constructor
      · intro c r
        rw [ih1, d1, hit]
        by_cases h : r.val = y0
        · simp [excl c r h, h, Fin.ext_iff]
        · simp [h, Fin.ext_iff]
      · rw [ih2, d2]
        simp only [d1, hit, Bool.or_eq_true, Bool.and_eq_true, decide_eq_true_eq]
        constructor
        · rintro ((h | ⟨c, h1, h2⟩) | ⟨c, r, h1, h2⟩)
          · exact .inl h
          · exact .inr ⟨c, _, h1, .inl ⟨rfl, h2⟩⟩
          · by_cases h : r.val = y0
            · rw [excl c r h] at h2; cases h2
            · exact .inr ⟨c, r, by simpa [h, Fin.ext_iff] using h1, .inr h2⟩
        · rintro (h | ⟨c, r, h1, (⟨h2, h3⟩ | h2)⟩)
          · exact .inl (.inl h)
          · have hr : r = ⟨y0, hrow⟩ := Fin.ext h2
            subst hr
            exact .inl (.inr ⟨c, h1, h3⟩)
          · have h : ¬ r.val = y0 := fun h => by rw [excl c r h] at h2; cases h2
            exact .inr ⟨c, r, by simpa [h, Fin.ext_iff] using h1, h2⟩
    · obtain ⟨ih1, ih2⟩ := ih (y0 + 1) acc
      have h : ∀ r : Fin 32, ¬ r.val = y0 := fun r => by have := r.isLt; omega
      rw [dif_neg hrow]
      simp only [hit, h, decide_false, Bool.false_and, Bool.false_or]
      exact ⟨ih1, ih2⟩

/-- Drawing a sprite XORs every pixel with the sprite's bit there (44_display.md R172, R173). -/
theorem drawSprite_px (p : Screen) (x0 y0 : Nat) (bs : List Byte) (c : Fin 64) (r : Fin 32) :
    (drawSprite p x0 y0 bs).1.px c r = (p.px c r ^^ spriteHit x0 y0 bs c r) :=
  (drawBytes_law x0 y0 bs (p, false)).1 c r

/-- Collision: some set pixel was under a set bit of the sprite (44_display.md R174). -/
theorem drawSprite_erased (p : Screen) (x0 y0 : Nat) (bs : List Byte) :
    (drawSprite p x0 y0 bs).2 = true ↔ ∃ c r, p.px c r = true ∧ spriteHit x0 y0 bs c r = true := by
  rw [drawSprite, (drawBytes_law x0 y0 bs (p, false)).2]; simp

end Sys2Proof.Machine
end

