-- ==== Sys2Proof/Tests/Slice0.lean ====
section
/-! SUPPORT. Tests with expected values from spec/95_test_vectors.md and the rules' examples, and a witness for every obligation's hypotheses. -/

namespace Sys2Proof.Tests

open Sys2Proof Sys2Proof.Machine

/-! ## Helpers -/

/-- The next state of an outcome. -/
def stateOf : Outcome → Option State
  | .next t => some t
  | .fault _ => none
  | .refused _ => none

/-- What one step from `s`, with opcode `op` under its pc, leaves. -/
def ran (op : Nat) (s : State) : Option State := stateOf (step (s.withFetchWord 16 op))

/-- The reset state with V1 and V2 set, and VF = 0x55 as the vectors of 2.4 start. -/
def regs (v1 v2 : Byte) : State := ((State.reset.writeReg 0xF 0x55).writeReg 1 v1).writeReg 2 v2

/-- The same with SHIFT_SRC = VY. -/
def regsVy (v1 v2 : Byte) : State := { regs v1 v2 with cfg := { Config.everyRow with shiftSrc := .vy } }

/-- The reset state with I set. -/
def atI (i : Word) : State := { State.reset with idx := i }

/-- V1, VF and pc: what the vectors of 2.4 give. -/
def v1VfPc (s : State) : Byte × Byte × Word := (s.readReg 1, s.readReg 0xF, s.pc)

/-- The fault record, in Faulted. -/
def record (s : State) : Option FaultRecord := if s.status = .faulted then s.fault else none

/-! ## Which instructions exist (30_encoding.md R81, R84, R86) -/

theorem test_wellFormed_or : (Instr.orReg 1 2).wellFormed Config.reference = false ∧
    (Instr.orReg 1 2).wellFormed Config.everyRow = true := by decide
theorem test_wellFormed_xor : (Instr.xorReg 1 2).wellFormed Config.reference = false ∧
    (Instr.xorReg 1 2).wellFormed Config.everyRow = true := by decide
theorem test_wellFormed_add : (Instr.addReg 1 2).wellFormed Config.reference = false ∧
    (Instr.addReg 1 2).wellFormed Config.everyRow = true := by decide
theorem test_wellFormed_shr : (Instr.shr 1 2).wellFormed Config.reference = false ∧
    (Instr.shr 1 2).wellFormed Config.everyRow = true := by decide
theorem test_wellFormed_subn : (Instr.subn 1 2).wellFormed Config.reference = false ∧
    (Instr.subn 1 2).wellFormed Config.everyRow = true := by decide
theorem test_wellFormed_shl : (Instr.shl 1 2).wellFormed Config.reference = false ∧
    (Instr.shl 1 2).wellFormed Config.everyRow = true := by decide
theorem test_wellFormed_halt : Instr.halt.wellFormed Config.reference = false ∧
    Instr.halt.wellFormed Config.everyRow = true := by decide
/-- 95_test_vectors.md 2.1: HALT_OPCODE = 0x00E0 is refused, and so is a word of an enabled optional row. -/
theorem test_illegal_halt : ({ Config.reference with haltOpcode := some 0x00E0 } : Config).legal = false ∧
    ({ Config.everyRow with haltOpcode := some 0x8124 } : Config).legal = false ∧
    ({ Config.reference with haltOpcode := some 0x8124 } : Config).legal = true ∧
    Config.reference.legal = true ∧ Config.everyRow.legal = true := by decide

/-! ## Decoding: a word of every constructor (95_test_vectors.md 2.1) -/

theorem test_decode_control : decode Config.reference 0x00EE = some .ret ∧
    decode Config.reference 0x1ABC = some (.jp 0xABC) ∧ decode Config.reference 0x2300 = some (.call 0x300) ∧
    decode Config.reference 0x3A42 = some (.seImm 0xA 0x42) ∧ decode Config.reference 0x4A42 = some (.sneImm 0xA 0x42) ∧
    decode Config.reference 0x5120 = some (.seReg 1 2) ∧ decode Config.reference 0x9120 = some (.sneReg 1 2) ∧
    decode Config.everyRow 0xFFFF = some .halt := by decide
theorem test_decode_alu : decode Config.reference 0x6A42 = some (.ldImm 0xA 0x42) ∧
    decode Config.reference 0x7A42 = some (.addImm 0xA 0x42) ∧ decode Config.reference 0x8120 = some (.ldReg 1 2) ∧
    decode Config.reference 0x8122 = some (.andReg 1 2) ∧ decode Config.reference 0x8125 = some (.sub 1 2) ∧
    decode Config.reference 0xC30F = some (.rnd 3 0x0F) := by decide
theorem test_decode_fullAlu : decode Config.everyRow 0x8121 = some (.orReg 1 2) ∧
    decode Config.everyRow 0x8123 = some (.xorReg 1 2) ∧ decode Config.everyRow 0x8124 = some (.addReg 1 2) ∧
    decode Config.everyRow 0x8126 = some (.shr 1 2) ∧ decode Config.everyRow 0x8127 = some (.subn 1 2) ∧
    decode Config.everyRow 0x812E = some (.shl 1 2) := by decide
theorem test_decode_index : decode Config.reference 0xA2F0 = some (.ldI 0x2F0) ∧
    decode Config.reference 0xF11E = some (.addIVx 1) ∧ decode Config.reference 0xF129 = some (.ldFVx 1) ∧
    decode Config.reference 0xF133 = some (.ldBVx 1) ∧ decode Config.reference 0xFF55 = some (.ldMemVx 0xF) ∧
    decode Config.reference 0xFF65 = some (.ldVxMem 0xF) := by decide
theorem test_decode_display : decode Config.reference 0x00E0 = some .cls ∧
    decode Config.reference 0xD015 = some (.drw 0 1 5) ∧ decode Config.reference 0xD010 = some (.drw 0 1 0) := by decide
theorem test_decode_keysTimers : decode Config.reference 0xE19E = some (.skp 1) ∧
    decode Config.reference 0xE1A1 = some (.sknp 1) ∧ decode Config.reference 0xF107 = some (.ldVxDt 1) ∧
    decode Config.reference 0xF10A = some (.ldVxK 1) ∧ decode Config.reference 0xF115 = some (.ldDtVx 1) ∧
    decode Config.reference 0xF118 = some (.ldStVx 1) := by decide
theorem test_decode_none : ([0x0000, 0x00E1, 0x0123, 0x5121, 0x8121, 0x8123, 0x8124, 0x8126, 0x8127, 0x8128, 0x812E,
      0x812F, 0x912F, 0xB123, 0xE19F, 0xF000, 0xF0FF, 0xFFFF] : List Word).map (decode Config.reference) =
    List.replicate 18 none := by decide
/-- The decoder's outputs for 0xB123 (95_test_vectors.md 2.1). -/
theorem test_decoderOut_none : decoderOut Config.reference 0xB123 = ⟨false, .NONE, 1, 2, 3, 0x23, 0x123⟩ := by decide
theorem test_decodeTableWord : decodeTableWord 16 0xD015 = some (.drw 0 1 5) ∧
    decodeTableWord 16 0x8124 = some (.addReg 1 2) ∧ decodeTableWord 16 0xFFFF = some .halt := by decide

/-! ## Step and faults (95_test_vectors.md 2.2, 2.8) -/

/-- S1, S2: the last fetchable address, then FETCH_RANGE. -/
theorem test_fetch_top : (ran 0x6007 { State.reset with pc := 0xFFE }).map (fun t => (t.readReg 0, t.pc,
      (stateOf (step t)).map record)) = some (7, 0x1000, some (some ⟨.fetchRange, none, 0x1000⟩)) := by decide
/-- S3, S5: FETCH_RANGE at 0xFFF, DECODE of the word 0x0000. -/
theorem test_fetch_decode_faults :
    (stateOf (step { State.reset with pc := 0xFFF })).map record = some (some ⟨.fetchRange, none, 0xFFF⟩) ∧
    (stateOf (step State.reset)).map record = some (some ⟨.decode, some 0x0000, 0x200⟩) := by decide
/-- S4: an odd pc. -/
theorem test_fetch_odd : (ran 0x6105 { State.reset with pc := 0x201 }).map (fun t => (t.readReg 1, t.pc)) =
    some (5, 0x203) := by decide
/-- The cause codes of 60_exceptions.md R212. -/
theorem test_fault_codes : [FaultKind.decode, .stackOverflow, .stackUnderflow, .fetchRange, .memRange, .indexOverflow,
    .fontWrite].map FaultKind.code = [1, 2, 3, 4, 5, 6, 7] := by decide
/-- 2.8: after a fault a step and a tick change nothing. -/
theorem test_frozen : (stateOf (step State.reset)).map (fun t => (decide (stateOf (step t) = some t),
      decide (t.tick = t), decide (t.outcome = .fault))) = some (true, true, true) := by decide

/-! ## Control (2.3) -/

/-- C4. -/
theorem test_ret : (ran 0x00EE { State.reset with sp := 2, stack := State.reset.stack.set 1 0x456 }).map
    (fun t => (t.sp, t.pc, t.stack[1])) = some (1, 0x458, 0x456) := by decide
/-- C1. -/
theorem test_ret_underflow : (ran 0x00EE State.reset).map (fun t => (record t, t.sp, t.pc)) =
    some (some ⟨.stackUnderflow, some 0x00EE, 0x200⟩, 0, 0x200) := by decide
/-- E4. -/
theorem test_jp : (ran 0x1ABC State.reset).map State.pc = some 0xABC := by decide
/-- C3. -/
theorem test_call : (ran 0x2400 { State.reset with sp := 15 }).map (fun t => (t.sp, t.pc, t.stack[15])) =
    some (16, 0x400, 0x200) := by decide
/-- C2. -/
theorem test_call_overflow : (ran 0x2400 { State.reset with sp := 16 }).map (fun t => (record t, t.sp, t.pc)) =
    some (some ⟨.stackOverflow, some 0x2400, 0x200⟩, 16, 0x200) := by decide
/-- C8, C9: with V3 = 0x10. -/
theorem test_seImm_sneImm : [0x3310, 0x3311, 0x4310, 0x4311].map
    (fun op => (ran op (State.reset.writeReg 3 0x10)).map State.pc) =
    [some 0x204, some 0x202, some 0x202, some 0x204] := by decide
/-- C10, C11, C12. -/
theorem test_seReg_sneReg : (ran 0x5120 (regs 7 7)).map State.pc = some 0x204 ∧
    [0x5120, 0x9120, 0x5110, 0x9110].map (fun op => (ran op (regs 7 8)).map State.pc) =
    [some 0x202, some 0x204, some 0x204, some 0x202] := by decide
/-- C14. -/
theorem test_halt : (ran 0xFFFF { State.reset with cfg := Config.everyRow }).map (fun t => (t.pc, t.status,
      decide (stateOf (step t) = some t), decide (t.tick = t))) = some (0x202, .halted, true, true) := by decide

/-! ## Arithmetic and logic (2.4) -/

/-- E1, A14. -/
theorem test_ldImm : (ran 0x6A42 State.reset).map (fun t => (t.readReg 0xA, t.pc)) = some (0x42, 0x202) ∧
    (ran 0x6F07 State.reset).map (fun t => t.readReg 0xF) = some 7 := by decide
/-- E2, A13. -/
theorem test_addImm : (ran 0x7120 (regs 0xF0 0)).map v1VfPc = some (0x10, 0x55, 0x202) ∧
    (ran 0x7F01 (State.reset.writeReg 0xF 0xFF)).map (fun t => t.readReg 0xF) = some 0 := by decide
/-- A1. -/
theorem test_ldReg : (ran 0x8120 (regs 0x33 0x44)).map v1VfPc = some (0x44, 0x55, 0x202) := by decide
/-- A2. -/
theorem test_andReg : (ran 0x8122 (regs 0xCC 0xAA)).map v1VfPc = some (0x88, 0x55, 0x202) := by decide
/-- E3, A4. -/
theorem test_sub : (ran 0x8125 (regs 5 3)).map v1VfPc = some (2, 1, 0x202) ∧
    (ran 0x8125 (regs 3 5)).map v1VfPc = some (0xFE, 0, 0x202) ∧
    (ran 0x8125 (regs 0 0)).map v1VfPc = some (0, 1, 0x202) := by decide
/-- A8, A9, A10: VF as destination and as operand. -/
theorem test_sub_vf : (ran 0x8F15 ((regs 3 0).writeReg 0xF 5)).map (fun t => t.readReg 0xF) = some 1 ∧
    (ran 0x8F15 ((regs 5 0).writeReg 0xF 3)).map (fun t => t.readReg 0xF) = some 0 ∧
    (ran 0x81F5 ((regs 3 0).writeReg 0xF 1)).map v1VfPc = some (2, 1, 0x202) := by decide
/-- A15. -/
theorem test_orReg : (ran 0x8121 (regs 0xC0 0x0A)).map v1VfPc = some (0xCA, 0x55, 0x202) := by decide
/-- A16. -/
theorem test_xorReg : (ran 0x8123 (regs 0xFF 0x0F)).map v1VfPc = some (0xF0, 0x55, 0x202) := by decide
/-- A18, A19, A22. -/
theorem test_addReg : (ran 0x8124 (regs 1 2)).map v1VfPc = some (3, 0, 0x202) ∧
    (ran 0x8124 (regs 0xFF 1)).map v1VfPc = some (0, 1, 0x202) ∧
    (ran 0x8FF4 (State.reset.writeReg 0xF 0x80)).map (fun t => t.readReg 0xF) = some 1 := by decide
/-- A24, A28. -/
theorem test_shr_vx : (ran 0x8126 (regs 5 0xFF)).map v1VfPc = some (2, 1, 0x202) ∧
    (ran 0x8F06 (State.reset.writeReg 0xF 2)).map (fun t => t.readReg 0xF) = some 0 := by decide
/-- A27. -/
theorem test_shr_vy : (ran 0x8126 (regsVy 0 0x81)).map (fun t => (v1VfPc t, t.readReg 2)) =
    some ((0x40, 1, 0x202), 0x81) := by decide
/-- A29, A30, A31. -/
theorem test_subn : (ran 0x8127 (regs 3 5)).map v1VfPc = some (2, 1, 0x202) ∧
    (ran 0x8127 (regs 5 3)).map v1VfPc = some (0xFE, 0, 0x202) ∧
    (ran 0x8127 (regs 4 4)).map v1VfPc = some (0, 1, 0x202) := by decide
/-- A32, A33. -/
theorem test_shl_vx : (ran 0x810E (regs 0x81 0)).map v1VfPc = some (2, 1, 0x202) ∧
    (ran 0x810E (regs 0x7F 0)).map v1VfPc = some (0xFE, 0, 0x202) := by decide
/-- A35. -/
theorem test_shl_vy : (ran 0x812E (regsVy 0xFF 0x40)).map v1VfPc = some (0x80, 0, 0x202) := by decide
/-- A36: without FULL_ALU the same word is a DECODE fault. Here the opcode lies in memory and the configuration is
the reference one. -/
theorem test_addReg_absent : (stateOf (step (((regs 1 2).putByte 0x200 0x81).putByte 0x201 0x24))).map
    (fun t => (record t, v1VfPc t)) = some (some ⟨.decode, some 0x8124, 0x200⟩, (1, 0x55, 0x200)) := by decide
/-- A38: a zero mask gives 0 whatever the draw, and the draw is used up (log 7). -/
theorem test_rnd_zero_mask : ∃ t, exec (.rnd 3 0) State.reset = .next t ∧ t.readReg 3 = 0 ∧ t.draws = 1 ∧
    t.pc = 0x202 := ⟨_, rfl, by simp [State.readReg_finish], rfl, rfl⟩

/-! ## Index register and memory (2.5) -/

/-- M1. -/
theorem test_ldI : (ran 0xAFFF State.reset).map (fun t => (t.idx, t.pc)) = some (0xFFF, 0x202) := by decide
/-- M3, M6. -/
theorem test_addI : (ran 0xF11E { regs 1 0 with idx := 0xFFF }).map State.idx = some 0x1000 ∧
    (ran 0xF11E { (regs 0xFF 0).writeReg 0xF 0xFF with idx := 0x10 }).map (fun t => (t.idx, t.readReg 0xF)) =
    some (0x10F, 0xFF) := by decide
/-- M4. -/
theorem test_addI_overflow : (ran 0xF11E { regs 0xFF 0 with idx := 0xFFFF }).map (fun t => (record t, t.idx)) =
    some (some ⟨.indexOverflow, some 0xF11E, 0x200⟩, 0xFFFF) := by decide
/-- M7, M8, E7. -/
theorem test_ldF : (ran 0xF129 (regs 0x0F 0)).map State.idx = some 0x4B ∧
    (ran 0xF129 (regs 0x1A 0)).map State.idx = some 0x32 ∧
    State.reset.bytesAt 0x32 5 = [0xF0, 0x90, 0xF0, 0x90, 0x90] := by decide
/-- E8, M14. -/
theorem test_ldB : (ran 0xF033 ((atI 0x300).writeReg 0 234)).map (fun t => (t.bytesAt 0x300 3, t.idx)) =
    some ([2, 3, 4], 0x300) ∧
    (ran 0xF033 (State.reset.writeReg 0 0xFF)).map (fun t => t.bytesAt 0 4) = some [2, 5, 5, 0x90] := by decide
/-- M12, M13. -/
theorem test_ldB_faults : (ran 0xF033 ((atI 0xFFE).writeReg 0 1)).map (fun t => (record t, t.bytesAt 0xFFE 2)) =
    some (some ⟨.memRange, some 0xF033, 0x200⟩, [0, 0]) ∧
    (ran 0xF033 { atI 0x40 with cfg := { Config.reference with fontWritable := false } }).map record =
    some (some ⟨.fontWrite, some 0xF033, 0x200⟩) := by decide
/-- M15, M16. -/
theorem test_ldMem : (ran 0xF255 (((regs 2 3).writeReg 0 1).setIndex 0x300)).map
      (fun t => (t.bytesAt 0x300 4, t.idx)) = some ([1, 2, 3, 0], 0x300) ∧
    (ran 0xF255 { ((regs 2 3).writeReg 0 1).setIndex 0x300 with cfg := { Config.reference with lsIndexInc := true } }).map
      State.idx = some 0x303 := by decide
/-- M19, F7. -/
theorem test_ldMem_faults : (ran 0xFF55 (atI 0xFF1)).map record =
    some (some ⟨.memRange, some 0xFF55, 0x200⟩) ∧
    (ran 0xF055 { atI 0x10 with cfg := { Config.reference with fontWritable := false } }).map record =
    some (some ⟨.fontWrite, some 0xF055, 0x200⟩) := by decide
/-- M21, M22. -/
theorem test_ldVxMem : (ran 0xFF65 { State.reset with cfg := { Config.reference with fontWritable := false } }).map
    (fun t => t.v.toList) = some [0xF0, 0x90, 0x90, 0x90, 0xF0, 0x20, 0x60, 0x20, 0x20, 0x70, 0xF0, 0x10, 0xF0, 0x80,
      0xF0, 0xF0] := by decide
/-- M20, M23. -/
theorem test_ldVxMem_range : (ran 0xF265 ((((atI 0x300).putBytes 0x300 [0xA, 0xB, 0xC])).writeReg 3 0x77)).map
      (fun t => (t.readReg 0, t.readReg 1, t.readReg 2, t.readReg 3, t.idx)) = some (0xA, 0xB, 0xC, 0x77, 0x300) ∧
    (ran 0xF065 (atI 0x1000)).map record = some (some ⟨.memRange, some 0xF065, 0x200⟩) := by decide
/-- Writing back what an address reads as unlisted removes the entry (log 5). -/
theorem test_memory_canonical : ((State.reset.putByte 0x300 7).putByte 0x300 0).mem = [] ∧
    ((State.reset.putByte 0 7).putByte 0 0xF0).mem = [] ∧
    ((State.reset.putByte 0x300 7).putByte 0x200 9).mem = [(0x200, 9), (0x300, 7)] := by decide

/-! ## Display (2.6) -/

/-- The lit pixels of some rows, as (column, row). -/
def lit (s : State) (rows : List (Fin 32)) : List (Nat × Nat) :=
  rows.flatMap fun r => ((List.finRange 64).filter fun c => s.screen.px c r).map fun c => (c.val, r.val)

/-- P1. -/
theorem test_cls : (ran 0x00E0 { State.reset with dirty := false, screen := State.reset.screen.flip 5 7 }).map
    (fun t => (lit t [7], t.dirty)) = some ([], true) := by decide
/-- P2: columns wrap. -/
theorem test_drw_wraps : (ran 0xD011 (((State.reset.putByte 0x300 0xFF).writeReg 0 62).setIndex 0x300)).map
    (fun t => (lit t [0, 1], t.readReg 0xF)) =
    some ([(0, 0), (1, 0), (2, 0), (3, 0), (4, 0), (5, 0), (62, 0), (63, 0)], 0) := by decide
/-- P6 and P12: a set pixel erased; the row below 31 clipped. -/
theorem test_drw_collides_clips : (ran 0xD012 { ((State.reset.putBytes 0x300 [0x80, 0x80]).writeReg 1 31).setIndex 0x300
      with screen := State.reset.screen.flip 0 31 }).map (fun t => (lit t [31, 0], t.readReg 0xF)) =
    some ([], 1) := by decide
/-- P8: the coordinates are read before VF is written. -/
theorem test_drw_vf : (ran 0xDFF1 { ((State.reset.putByte 0x300 0x80).writeReg 0xF 10).setIndex 0x300
      with screen := State.reset.screen.flip 10 10 }).map (fun t => (lit t [10], t.readReg 0xF)) =
    some ([], 1) := by decide
/-- P9, P11. -/
theorem test_drw_range : (ran 0xD013 (atI 0xFFE)).map record = some (some ⟨.memRange, some 0xD013, 0x200⟩) ∧
    (ran 0xD010 { atI 0x1000 with dirty := false }).map (fun t => (t.status, t.dirty, t.readReg 0xF)) =
    some (.running, true, 0) := by decide
/-- P13. -/
theorem test_render : State.reset.render.dirty = false ∧ State.reset.render.frame = some State.reset.screen ∧
    State.reset.render.render = State.reset.render := by decide

/-! ## Keys, timers, the host (2.7, 2.9) -/

/-- V2 = 5 or 0x15 with a key value of the host. -/
def withKey (k : Option Int) (v2 : Byte) : State := { regs 0 v2 with keyIn := k }

/-- K1, K2, K4, K6. -/
theorem test_skp : [withKey (some 5) 5, withKey none 5, withKey (some 5) 0x15, withKey (some (-1)) 5].map
    (fun s => (ran 0xE29E s).map State.pc) = [some 0x204, some 0x202, some 0x202, some 0x202] := by decide
/-- K3, K4, K5. -/
theorem test_sknp : [withKey (some 5) 5, withKey (some 6) 5, withKey (some 5) 0x15, withKey (some 16) 5].map
    (fun s => (ran 0xE2A1 s).map State.pc) = [some 0x202, some 0x204, some 0x204, some 0x204] := by decide
/-- K12. -/
theorem test_ldVxDt : (ran 0xF507 { State.reset with delay := ⟨0x3C, true⟩ }).map (fun t => (t.readReg 5, t.delay)) =
    some (0x3C, ⟨0x3C, true⟩) := by decide
/-- K7: a held key is not taken by the instruction itself. -/
theorem test_ldVxK : (ran 0xF30A { State.reset with keyIn := some 7 }).map
    (fun t => (t.status, t.waitX, t.pc, t.readReg 3)) = some (.waiting, 3, 0x202, 0) := by decide
/-- K9: the commit and the next instruction in one step. K10: the commit stays when that instruction faults. -/
theorem test_wake : (stateOf (step (({ State.reset with status := .waiting, waitX := 3, keyIn := some 7 } : State).putBytes
      0x200 [0x64, 0x01]))).map (fun t => (t.readReg 3, t.readReg 4, t.status, t.pc)) = some (7, 1, .running, 0x202) ∧
    (stateOf (step { State.reset with status := .waiting, waitX := 3, keyIn := some 9 })).map
      (fun t => (t.readReg 3, record t)) = some (9, some ⟨.decode, some 0, 0x200⟩) := by decide
/-- K13, K14. -/
theorem test_ldDt : (ran 0xF115 (regs 0x3C 0)).map (fun t => (t.delay, t.tones)) = some (⟨0x3C, true⟩, []) ∧
    (ran 0xF115 (regs 0 0)).map (fun t => (t.delay, t.tick.delay, t.tick.tones)) =
    some (⟨0, true⟩, ⟨0, false⟩, []) := by decide
/-- E9, K15. -/
theorem test_ldSt : (ran 0xF118 (regs 2 0)).map (fun t => (t.sound, t.tick.sound, t.tick.tick.sound,
      t.tick.tick.tick.tones)) = some (⟨2, true⟩, ⟨1, true⟩, ⟨0, false⟩, [.toneStart, .toneStop]) ∧
    (ran 0xF118 (regs 0 0)).map (fun t => (t.sound, t.tick.sound, t.tick.tones)) =
    some (⟨0, true⟩, ⟨0, false⟩, [.toneStart, .toneStop]) := by decide
/-- K17, K18, K21. -/
theorem test_tick_teardown : ({ State.reset with delay := ⟨1, true⟩, sound := ⟨1, true⟩ } : State).tick.tones = [.toneStop] ∧
    State.reset.tick = State.reset ∧ State.reset.teardown.tones = [.stopFinal] := by decide
/-- L5. -/
theorem test_load : (stateOf (step { State.reset with pending := [.load [0x12, 0x00]] })).map
    (fun t => (t.bytesAt 0x200 3, t.byteAt 0x4F, t.pc)) = some ([0x12, 0, 0], 0x80, 0x200) := by decide

/-! ## Witnesses: states and operands that meet the hypotheses of the obligations -/

/-- The reset state with a transaction queued. -/
def queued (op : HostOp) : State := { State.reset with pending := [op] }

/-- NextIsStep holds of the reset state and of a queued step. -/
theorem test_witness_nextIsStep : State.reset.NextIsStep State.reset ∧
    (queued (.step (some 5))).NextIsStep { State.reset with keyIn := some 5 } :=
  ⟨⟨rfl, rfl, .inl ⟨rfl, rfl⟩⟩, ⟨rfl, rfl, .inr ⟨_, _, rfl, rfl⟩⟩⟩

/-- A state whose next transaction is a step from itself: every concrete state below with no queue. -/
theorem nextIsStep_self {s : State} (h1 : s.tornDown = false) (h2 : s.cfg.legal = true) (h3 : s.pending = []) :
    s.NextIsStep s := ⟨h1, h2, .inl ⟨h3, rfl⟩⟩

/-- DecodeOfEncodeGivesTheInstruction: a base row, an optional row and HALT. -/
theorem test_witness_decodeOfEncode : Config.reference.legal = true ∧
    (Instr.drw 0xF 0xF 0xF).wellFormed Config.reference = true ∧ Config.everyRow.legal = true ∧
    (Instr.shl 0 0xF).wellFormed Config.everyRow = true ∧ Instr.halt.wellFormed Config.everyRow = true := by decide
/-- EncodeOfDecodeGivesTheOpcode and DecoderOutputsForEveryWord: a word that decodes and one that does not. -/
theorem test_witness_encodeOfDecode : decode Config.reference 0x8FF5 = some (.sub 0xF 0xF) ∧
    decode Config.reference 0xB000 = none := by decide
/-- DecoderAnswersTheSelectedRow: a row selected and its kind answered. -/
theorem test_witness_selectedRow : Config.reference.legal = true ∧
    (∃ r ∈ Config.reference.opcodeTable, (0xF065 : Word) &&& r.mask = r.value ∧ r.kind = .LD_VX_MEM) := by decide
/-- TableRowsAreDisjoint: two configurations with the same rows. -/
theorem test_witness_disjoint : Config.everyRow.legal = true ∧
    ({ Config.reference with lsIndexInc := true } : Config).fullAlu = Config.reference.fullAlu ∧
    ({ Config.reference with lsIndexInc := true } : Config).haltOpcode = Config.reference.haltOpcode := by decide

/-- StepRunsTheDecodedInstruction at the highest pc. -/
theorem test_witness_stepRuns : ∃ s : State, s.NextIsStep s ∧ s.status = .running ∧ s.pc.toNat = 0xFFE ∧
    decode s.cfg (s.byteAt s.pc.toNat ++ s.byteAt (s.pc.toNat + 1) : BitVec 16) = some (.ldImm 0 7) :=
  ⟨({ State.reset with pc := 0xFFE } : State).putBytes 0xFFE [0x60, 0x07],
    nextIsStep_self rfl rfl rfl, rfl, by decide, by decide⟩
/-- FetchBeyondMemoryFaults at the lowest such pc. -/
theorem test_witness_fetchBeyond : ∃ s : State, s.NextIsStep s ∧ s.status = .running ∧ 0xFFE < s.pc.toNat :=
  ⟨{ State.reset with pc := 0xFFF }, nextIsStep_self rfl rfl rfl, rfl, by decide⟩
/-- UnrecognizedOpcodeFaults and StepFaultRecordsWhatItFetched, DECODE: the reset state's own first word. -/
theorem test_witness_unrecognized : ∃ s : State, s.NextIsStep s ∧ s.status = .running ∧ s.pc.toNat ≤ 0xFFE ∧
    (0 : Word) = (s.byteAt s.pc.toNat ++ s.byteAt (s.pc.toNat + 1) : BitVec 16) ∧ decode s.cfg 0 = none ∧
    ∃ t, step s = .next t ∧ t.status = .faulted :=
  ⟨State.reset, nextIsStep_self rfl rfl rfl, rfl, by decide, by decide, by decide, _, rfl, by decide⟩
/-- StepFaultRecordsWhatItFetched: FETCH_RANGE, and an instruction's own fault. -/
theorem test_witness_stepFault :
    (stateOf (step { State.reset with pc := 0xFFF })).map State.status = some .faulted ∧
    (stateOf (step (State.reset.putBytes 0x200 [0x00, 0xEE]))).map State.status = some .faulted := by decide
/-- OptionalRowsFaultWithoutFullAlu, at the row's first and last word. -/
theorem test_witness_optionalRows : ∀ op ∈ ([0x8001, 0x8FFE] : List Word), ∃ s : State, s.NextIsStep s ∧
    s.status = .running ∧ s.pc.toNat ≤ 0xFFE ∧
    op = (s.byteAt s.pc.toNat ++ s.byteAt (s.pc.toNat + 1) : BitVec 16) ∧ 0x8000 ≤ op.toNat ∧ op.toNat < 0x9000 ∧
    op.toNat % 16 ∈ [0x1, 0x3, 0x4, 0x6, 0x7, 0xE] ∧ s.cfg.fullAlu = false ∧ s.cfg.haltOpcode ≠ some op := by
  intro op h
  fin_cases h
  · exact ⟨State.reset.putBytes 0x200 [0x80, 0x01], nextIsStep_self rfl rfl rfl, rfl, by decide⟩
  · exact ⟨State.reset.putBytes 0x200 [0x8F, 0xFE], nextIsStep_self rfl rfl rfl, rfl, by decide⟩
/-- WaitingStepWithoutKeyDoesNothing: no key, and the values just outside 0..15. -/
theorem test_witness_waitNoKey : ∀ k ∈ [none, some (-1 : Int), some 16], ∃ s : State, s.NextIsStep s ∧
    s.status = .waiting ∧ s.keyIn = k ∧ ∀ j, s.keyIn = some j → j < 0 ∨ 15 < j := by
  intro k hk
  refine ⟨{ State.reset with status := .waiting, keyIn := k }, nextIsStep_self rfl rfl rfl, rfl, rfl, ?_⟩
  fin_cases hk <;> simp
/-- WaitingStepWithKeyCommitsAndRuns: the first and the last key. -/
theorem test_witness_waitKey : ∀ k ∈ [0, 15], ∃ s : State, s.NextIsStep s ∧ s.status = .waiting ∧
    s.keyIn = some (k : Int) ∧ k ≤ 15 := by
  intro k hk
  refine ⟨{ State.reset with status := .waiting, keyIn := some k }, nextIsStep_self rfl rfl rfl, rfl, rfl, ?_⟩
  revert k; decide
/-- FrozenStatesStayAsTheyAre: both frozen states. -/
theorem test_witness_frozen : ∀ st ∈ [Status.halted, Status.faulted], ∃ s : State, s.NextIsStep s ∧ s.status = st :=
  fun st _ => ⟨{ State.reset with status := st }, nextIsStep_self rfl rfl rfl, rfl⟩

/-- Whether `exec` answers a next state with this status. -/
def ends (i : Instr) (s : State) (st : Status) : Bool :=
  match stateOf (exec i s) with
  | none => false
  | some t => decide (t.status = st)

/-- InstructionFaultsArePrecise and InstructionFaultsExactlyWhen: every fault at the boundary of its condition. -/
theorem test_witness_faults : ends .ret State.reset .faulted ∧ ends (.call 0) { State.reset with sp := 16 } .faulted ∧
    ends (.addIVx 1) { regs 1 0 with idx := 0xFFFF } .faulted ∧ ends (.drw 0 0 2) (atI 0xFFF) .faulted ∧
    ends (.ldBVx 0) (atI 0xFFE) .faulted ∧ ends (.ldMemVx 1) (atI 0xFFF) .faulted ∧
    ends (.ldVxMem 1) (atI 0xFFF) .faulted ∧
    ends (.ldBVx 0) { atI 0x4F with cfg := { Config.reference with fontWritable := false } } .faulted ∧
    ends (.ldMemVx 0) { atI 0x4F with cfg := { Config.reference with fontWritable := false } } .faulted := by decide
/-- InstructionFaultsExactlyWhen: just inside each condition nothing faults. -/
theorem test_witness_noFault : ends .ret { State.reset with sp := 1 } .running ∧
    ends (.call 0) { State.reset with sp := 15 } .running ∧ ends (.addIVx 1) { regs 1 0 with idx := 0xFFFE } .running ∧
    ends (.drw 0 0 1) (atI 0xFFF) .running ∧ ends (.drw 0 0 0) (atI 0xFFFF) .running ∧
    ends (.ldBVx 0) (atI 0xFFD) .running ∧ ends (.ldMemVx 0) (atI 0xFFF) .running ∧
    ends (.ldVxMem 0) (atI 0xFFF) .running ∧
    ends (.ldBVx 0) { atI 0x50 with cfg := { Config.reference with fontWritable := false } } .running ∧
    ends (.ldVxMem 0) { atI 0x4F with cfg := { Config.reference with fontWritable := false } } .running := by decide

/-- SubSetsNotBorrow, AddRegAndSubnSetTheFlag, ShiftsSetTheBitShiftedOut: V1 and VF, so both kinds of register exist. -/
theorem test_witness_regs : (1 : Nibble) ≠ vF ∧ (2 : Nibble) ≠ 1 ∧ (2 : Nibble) ≠ vF := by decide
/-- ShiftsSetTheBitShiftedOut: both sources of the operand, with different values. -/
theorem test_witness_shiftSource : (regs 5 0x81).shiftOperand 1 2 = 5 ∧ (regsVy 5 0x81).shiftOperand 1 2 = 0x81 ∧
    (regsVy 5 0x81).cfg.shiftSrc = .vy ∧ (regs 5 0x81).cfg.shiftSrc = .vx := by decide
/-- CallPushesItsOwnAddress and RetPopsAndAdvances: the last free entry at the highest pc; a full stack; one entry. -/
theorem test_witness_stack : (({ State.reset with sp := 15, pc := 0xFFE } : State).sp.toNat < 16 ∧
      ({ State.reset with sp := 15, pc := 0xFFE } : State).pc.toNat ≤ 0xFFE) ∧
    ({ State.reset with sp := 16 } : State).sp.toNat = 16 ∧ ({ State.reset with sp := 16 } : State).sp.toNat = 15 + 1 ∧
    ({ State.reset with sp := 1 } : State).sp.toNat = 0 + 1 ∧ State.reset.sp.toNat = 0 := by decide
/-- CallAndRetStopBeyondTheStack at the lowest such pointer. -/
theorem test_witness_beyondStack : 16 < ({ State.reset with sp := 17 } : State).sp.toNat := by decide
/-- RetResumesAfterTheCall: a call at the last free entry, and the state it leaves. -/
theorem test_witness_retResumes : ∃ s t : State, s.sp.toNat = 15 ∧ s.pc.toNat ≤ 0xFFE ∧
    exec (.call 0x400) s = .next t ∧ t.sp = t.sp ∧ t.stack[15] = t.stack[15] :=
  ⟨{ State.reset with sp := 15, pc := 0xFFE }, _, by decide, by decide, rfl, rfl, rfl⟩
/-- HaltAdvancesAndFreezes: a configuration with the halt word and one without. -/
theorem test_witness_haltOpcode : Config.everyRow.haltOpcode = some 0xFFFF ∧ Config.reference.haltOpcode = none := by decide
/-- AddIIsUnmasked: the largest sum that fits, and the next. -/
theorem test_witness_addI : (regs 1 0).readReg 1 = 1 ∧
    ({ regs 1 0 with idx := 0xFFFE } : State).idx.toNat + ((regs 1 0).readReg 1).toNat ≤ 0xFFFF ∧
    0xFFFF < ({ regs 1 0 with idx := 0xFFFF } : State).idx.toNat + ((regs 1 0).readReg 1).toNat := by decide
/-- LdBStoresThreeDigits, LdMemStoresTheRegisters, LdVxMemLoadsTheRegisters: the last range inside memory and the first
outside it; the font's last byte and the first after it, not writable. -/
theorem test_witness_ranges : (atI 0xFFD).indexAddr + 2 ≤ 0xFFF ∧ 0xFFF < (atI 0xFFE).indexAddr + 2 ∧
    (atI 0xFF0).indexAddr + (0xF : Nibble).toNat ≤ 0xFFF ∧ 0xFFF < (atI 0xFF1).indexAddr + (0xF : Nibble).toNat ∧
    (atI 0xFFD).cfg.fontWritable = true ∧ 0x4F < (atI 0x50).indexAddr ∧ (atI 0x4F).indexAddr ≤ 0x4F ∧
    ({ Config.reference with fontWritable := false } : Config).fontWritable = false := by decide
/-- StoredRegistersLoadBack: a store that runs, read from the state it leaves. -/
theorem test_witness_storedRegisters : ∃ t : State, exec (.ldMemVx 0xF) (atI 0xFF0) = .next t ∧
    (atI 0xFF0).status = .running ∧ t.status = .running ∧ t.idx = (atI 0xFF0).idx :=
  ⟨_, rfl, rfl, by decide, by decide⟩
/-- DrwXorsTheSprite: no byte, the last byte inside memory, one beyond. -/
theorem test_witness_drw : (0 : Nibble).toNat = 0 ∧ (atI 0xFFF).indexAddr + ((1 : Nibble).toNat - 1) ≤ 0xFFF ∧
    1 ≤ (2 : Nibble).toNat ∧ 0xFFF < (atI 0xFFF).indexAddr + ((2 : Nibble).toNat - 1) := by decide
/-- DrwXorsTheSprite: the covered pixels of a sprite at (62, 31), among them one past the column wrap. -/
theorem test_witness_covered : ∃ covered : Fin 64 → Fin 32 → Prop,
    (∀ c r, covered c r ↔ ∃ k j : Nat, k < (2 : Nibble).toNat ∧ j < 8 ∧ 31 + k = r.val ∧ (62 + j) % 64 = c.val ∧
      (State.reset.byteAt k).getLsbD (7 - j) = true) ∧ covered 0 31 :=
  ⟨_, fun _ _ => Iff.rfl, 0, 2, by decide⟩
/-- DrawingTwiceRestoresTheScreen: glyph 0 drawn at (0, 0). -/
theorem test_witness_drawTwice : ∃ t : State, exec (.drw 0 1 5) State.reset = .next t ∧ State.reset.status = .running ∧
    t.status = .running ∧ t.readReg 0 = State.reset.readReg 0 ∧ t.readReg 1 = State.reset.readReg 1 :=
  ⟨_, rfl, rfl, by decide, by decide, by decide⟩
/-- KeySkipsCompareTheWholeByte: a state in which V2 is pressed, and one in which it is not. -/
theorem test_witness_pressed :
    (∃ k : Int, (withKey (some 15) 15).keyIn = some k ∧ 0 ≤ k ∧ k ≤ 15 ∧ k = ((withKey (some 15) 15).readReg 2).toNat) ∧
    ¬ ∃ k : Int, (withKey (some 16) 16).keyIn = some k ∧ 0 ≤ k ∧ k ≤ 15 ∧ k = ((withKey (some 16) 16).readReg 2).toNat := by
  refine ⟨⟨15, rfl, by decide, by decide, by decide⟩, ?_⟩
  rintro ⟨k, hk, -, h15, -⟩
  have : k = 16 := by simpa [withKey] using hk.symm
  omega
/-- TickCountsBothTimersDown: running and waiting, with timers at 2, 1, 0 and inactive. -/
theorem test_witness_tick : ∀ st ∈ [Status.running, Status.waiting], ∃ s : State, s.tornDown = false ∧
    s.cfg.legal = true ∧ s.pending = .tick :: [] ∧ s.status = st ∧ s.delay.active = true ∧ s.sound.active = false :=
  fun st _ => ⟨{ queued .tick with status := st, delay := ⟨2, true⟩ }, rfl, rfl, rfl, rfl, rfl, rfl⟩
/-- TickCountsBothTimersDown, the other activity of each timer: sound about to stop, delay inactive. -/
theorem test_witness_tick_sound : ∃ s : State, s.tornDown = false ∧ s.cfg.legal = true ∧ s.pending = .tick :: [] ∧
    s.status = .running ∧ s.delay.active = false ∧ s.sound.active = true ∧ s.sound.value.toNat = 1 :=
  ⟨{ queued .tick with sound := ⟨1, true⟩ }, rfl, rfl, rfl, rfl, rfl, rfl, rfl⟩
/-- LdDtSetsTheDelayTimer, its clause about 0: V1 is 0 at reset. -/
theorem test_witness_ldDt : State.reset.status = .running ∧ State.reset.readReg 1 = 0 := by decide
/-- RegisterSkipsAdvanceByTwoOrFour, its clause about the other low nibbles: the first and the last. -/
theorem test_witness_skips : (1 : Nibble) ≠ 0 ∧ (0xF : Nibble) ≠ 0 ∧
    State.reset.cfg.haltOpcode ≠ some (0x5#4 ++ 0x1#4 ++ 0x2#4 ++ 0xF#4) := by decide
/-- SoundTimerStopsOnceOnReachingZero: a set to 0, which stops on the first tick. -/
theorem test_witness_sound : ∃ t : State, State.reset.status = .running ∧ exec (.ldStVx 1) State.reset = .next t :=
  ⟨_, rfl, rfl⟩
/-- LoadPlacesTheProgram: the longest program, the next length, and a load after a step. -/
theorem test_witness_load : (∃ bytes : List Byte, bytes.length = 3584) ∧
    (∃ bytes : List Byte, bytes.length = 3585) ∧ (queued (.load [])).started = false ∧
    ({ queued (.load []) with started := true } : State).started = true ∧
    (queued (.load [])).cfg.legal = true ∧ (queued (.load [])).tornDown = false :=
  ⟨⟨_, List.length_replicate (a := 0)⟩, ⟨_, List.length_replicate (a := 0)⟩, rfl, rfl, rfl, rfl⟩
/-- L3: the load of 3585 bytes is refused. -/
theorem test_load_too_long (bytes : List Byte) (h : bytes.length = 3585) :
    step (queued (.load bytes)) = .refused .loadTooLong := by
  have h : progMax < bytes.length := by rw [h]; decide
  show loadProgram bytes State.reset = _
  unfold loadProgram
  rw [if_neg (by decide), if_pos h]
/-- RenderCopiesWhenDirty and TeardownStopsTheToneForGood: each queued, dirty and clean, before and after teardown. -/
theorem test_witness_render : (queued .render).dirty = true ∧ ({ queued .render with dirty := false } : State).dirty = false ∧
    (queued .render).tornDown = false ∧ (queued .render).cfg.legal = true ∧
    (queued .teardown).pending = .teardown :: [] ∧ ({ State.reset with tornDown := true } : State).tornDown = true := by decide
/-- IllegalHaltOpcodeIsRefused: HALT_OPCODE = 0x00E0. -/
theorem test_witness_illegalHalt : ∃ s : State, s.tornDown = false ∧ s.cfg.haltOpcode = some 0x00E0 ∧
    decode { s.cfg with haltOpcode := none } 0x00E0 = some .cls :=
  ⟨{ State.reset with cfg := { Config.reference with haltOpcode := some 0x00E0 } }, rfl, rfl, by decide⟩

/-- What two states differ in, for the witnesses of the whole-machine rules. -/
def changes {α : Type} [DecidableEq α] (i : Instr) (s : State) (f : State → α) : Bool :=
  match stateOf (exec i s) with
  | none => false
  | some t => decide (f t ≠ f s)

/-- OnlyTheseInstructionsChangeVF: instructions of each kind that do change VF. -/
theorem test_witness_vf : changes (.sub 1 2) (regs 5 3) (State.readReg · vF) ∧
    changes (.addReg 1 2) (regs 5 3) (State.readReg · vF) ∧ changes (.drw 0 0 0) (regs 0 0) (State.readReg · vF) ∧
    changes (.ldImm vF 1) (regs 0 0) (State.readReg · vF) ∧ changes (.ldReg vF 1) (regs 0 0) (State.readReg · vF) ∧
    changes (.ldVxDt vF) (regs 0 0) (State.readReg · vF) ∧ changes (.ldVxMem vF) (regs 0 0) (State.readReg · vF) := by decide
/-- The state after reset with the delay timer at 7. -/
def midTimer : State := { State.reset with delay := ⟨7, true⟩ }

/-- EachStateHasItsOnlyWriters: each part of the state is changed by one of its writers. -/
theorem test_witness_writers : changes .ret { State.reset with sp := 1 } State.sp ∧
    changes (.call 0) State.reset State.stack ∧ changes (.ldI 1) State.reset State.idx ∧
    changes (.ldMemVx 0) { State.reset with cfg := { Config.reference with lsIndexInc := true } } State.idx ∧
    changes (.ldDtVx 0) State.reset State.delay ∧ changes (.ldStVx 0) State.reset State.sound ∧
    changes .cls { State.reset with dirty := false } State.dirty ∧ changes (.ldBVx 0) State.reset (State.byteAt · 0) ∧
    changes (.ldVxK 3) State.reset State.waitX ∧ changes (.rnd 0 0) State.reset State.draws := by decide
/-- EachStateHasItsOnlyWriters: registers and pc, each kind of writer, at the ends of the loaded range. -/
theorem test_witness_writers_reg : changes (.addImm 3 1) (regs 0 0) (State.readReg · 3) ∧
    changes (.orReg 1 2) (regs 0 3) (State.readReg · 1) ∧ changes (.ldVxDt 3) midTimer (State.readReg · 3) ∧
    changes (.ldVxMem 1) (regs 0 0) (State.readReg · 0) ∧ changes (.ldVxMem 1) (regs 0 0) (State.readReg · 1) ∧
    changes (.ldVxMem 1) (regs 0 0) (State.readReg · 2) = false ∧
    changes (.jp 0x300) State.reset State.pc ∧
    (stateOf (exec (.seImm 0 0) State.reset)).map State.pc = some 0x204 ∧
    (stateOf (exec .ret State.reset)).map (fun t => (t.pc, t.status)) = some (0x200, .faulted) := by decide
/-- EachStateHasItsOnlyWriters: status and the fault record, each kind of writer. -/
theorem test_witness_writers_status : changes (.ldVxK 3) State.reset State.status ∧
    changes .halt State.reset State.status ∧ changes .ret State.reset State.fault ∧
    changes (.call 0) { State.reset with sp := 16 } State.fault ∧
    changes (.ldMemVx 0) { State.reset with idx := 0x1000 } State.fault := by decide
/-- NoInstructionReadsDirty and StepKeepsTheConfiguration: `exec` and `step` answer next states. -/
theorem test_witness_next : (stateOf (exec (.ldMemVx 0) State.reset)).isSome = true ∧
    (stateOf (step State.reset)).isSome = true := by decide
/-- ResetHoldsTheSpecValues: both fills exist. -/
theorem test_witness_fill : Config.reference.resetFill = .zero ∧
    ({ Config.reference with resetFill := .arbitrary } : Config).resetFill = .arbitrary ∧
    ({ Config.reference with resetFill := .arbitrary } : Config).legal = true := by decide

/-- A state of a run: one CALL deep, timers going, a tone on, a byte written, the second timer's tick queued. -/
def midRun : State :=
  { State.reset with
    sp := 1, stack := State.reset.stack.set 0 0x200, pc := 0x300, delay := ⟨3, true⟩, sound := ⟨1, true⟩
    tones := [.toneStart], mem := [(0x300, 0x12)], started := true, pending := [.tick] }

/-- EveryStepKeepsTheInvariant and LegalTransactionsAlwaysAnswer: a state that meets the invariant and steps. -/
theorem test_witness_inv : midRun.Inv ∧ midRun.hostLegal ∧ (stateOf (step midRun)).isSome = true := by
  refine ⟨?_, ⟨rfl, ?_⟩, by decide⟩
  · exact {
      legal := rfl
      memory := by decide
      stackPointer := by decide
      returnAddresses := by
        intro j h hj
        have : j = 0 := by simpa [midRun] using hj
        subst this; show ((0x200 : Addr).toNat ≤ 0xFFE); decide
      delayTimer := by intro h; simp [midRun] at h
      soundTimer := by intro h; simp [midRun] at h
      programCounter := by decide
      faultRecord := by decide
      tone := by intro _; decide
      begun := by intro _; rfl }
  · intro bytes rest h
    simp [midRun] at h
/-- LegalTransactionsAlwaysAnswer, its load clause: an empty load queued at reset is legal. -/
theorem test_witness_hostLegal : (queued (.load [])).hostLegal := by
  refine ⟨rfl, fun bytes rest h => ?_⟩
  simp only [queued, List.cons.injEq, HostOp.load.injEq] at h
  exact ⟨rfl, by rw [← h.1]; decide⟩

end Sys2Proof.Tests
end

section
/-! PROOFS. What each transaction and each instruction writes (10_state.md). -/

namespace Sys2Proof.Machine

/-! ## The host's transactions -/

/-- After teardown the machine refuses every transaction (10_state.md R46; log 13). -/
theorem step_of_tornDown {s : State} (h : s.tornDown = true) : step s = .refused .afterTeardown := by
  simp [step, nextTransaction, h]

/-- In a legal configuration and before teardown a step is the transaction the host queued first (log 9). -/
theorem step_of_pending {s : State} {op : HostOp} {rest : List HostOp} (ht : s.tornDown = false)
    (hc : s.cfg.legal = true) (hp : s.pending = op :: rest) : step s = transact op { s with pending := rest } := by
  simp [step, nextTransaction, ht, hc, hp]

/-- Settles O51: a queued teardown is `State.teardown`, and after it the step looks at nothing but `tornDown`. -/
theorem teardownStopsTheToneForGood : Obligations.TeardownStopsTheToneForGood :=
  ⟨fun _ _ ht hc hp => step_of_pending ht hc hp, fun _ => step_of_tornDown⟩

/-! ## Frames -/

/-- Writing the register file and advancing changes the registers and the pc only. -/
theorem State.onlyRegsPc_advance (s : State) (v : Vector Byte 16) : s.OnlyRegsPc { s with v := v }.advance :=
  ⟨fun _ => rfl, rfl⟩

end Sys2Proof.Machine

namespace Sys2Proof

open Machine

/-! ## The writers of each part of the state -/

/-- The instructions that may write `V[r]` (10_state.md R22). -/
def Instr.MayWrite (i : Instr) (r : Nibble) : Prop :=
  (∃ kk, i = .ldImm r kk ∨ i = .addImm r kk ∨ i = .rnd r kk) ∨
  (∃ y, i = .ldReg r y ∨ i = .orReg r y ∨ i = .andReg r y ∨ i = .xorReg r y ∨ i = .addReg r y ∨ i = .sub r y ∨
    i = .subn r y ∨ i = .shr r y ∨ i = .shl r y) ∨
  i = .ldVxDt r ∨ (∃ x, i = .ldVxMem x ∧ r.toNat ≤ x.toNat) ∨
  (r = vF ∧ ((∃ x y, i = .addReg x y ∨ i = .sub x y ∨ i = .subn x y ∨ i = .shr x y ∨ i = .shl x y) ∨
    ∃ x y n, i = .drw x y n))

/-- The skips (41_control.md R103 to R106, 45_timers_keys.md R190, R191). -/
def Instr.MaySkip (i : Instr) : Prop :=
  (∃ x kk, i = .seImm x kk ∨ i = .sneImm x kk) ∨ (∃ x y, i = .seReg x y ∨ i = .sneReg x y) ∨
    ∃ x, i = .skp x ∨ i = .sknp x

/-- The instructions with a fault of their own (60_exceptions.md R212). -/
def Instr.MayFault (i : Instr) : Prop :=
  i = .ret ∨ (∃ nnn, i = .call nnn) ∨ (∃ x y n, i = .drw x y n) ∨
    ∃ x, i = .addIVx x ∨ i = .ldBVx x ∨ i = .ldMemVx x ∨ i = .ldVxMem x

/-- Instruction `i` may lead from `s` to `t`: what differs between them is what `i` may write. A field left out when
this is proved is one that `t` keeps by definition. -/
structure Instr.Writes (i : Instr) (s t : State) : Prop where
  regs : ∀ r, t.readReg r ≠ s.readReg r → i.MayWrite r := by exact fun _ h => absurd rfl h
  pc : t.pc ≠ s.pc + 2 →
    i = .ret ∨ (∃ nnn, i = .jp nnn ∨ i = .call nnn) ∨ (t.pc = s.pc ∧ t.status = .faulted) ∨
    (t.pc = s.pc + 4 ∧ i.MaySkip) := by exact fun h => absurd rfl h
  status : t.status ≠ s.status ∨ t.fault ≠ s.fault →
    (∃ x, i = .ldVxK x ∧ t.status = .waiting ∧ t.fault = s.fault) ∨
    (i = .halt ∧ t.status = .halted ∧ t.fault = s.fault) ∨
    (t.status = .faulted ∧ i.MayFault) := by exact fun h => h.elim (absurd rfl) (absurd rfl)
  stack : t.sp ≠ s.sp ∨ t.stack ≠ s.stack → i = .ret ∨ ∃ nnn, i = .call nnn := by
    exact fun h => h.elim (absurd rfl) (absurd rfl)
  idx : t.idx ≠ s.idx →
    (∃ nnn, i = .ldI nnn) ∨ (∃ x, i = .ldFVx x ∨ i = .addIVx x) ∨
    (s.cfg.lsIndexInc = true ∧ ∃ x, i = .ldMemVx x ∨ i = .ldVxMem x) := by exact fun h => absurd rfl h
  delay : t.delay ≠ s.delay → ∃ x, i = .ldDtVx x := by exact fun h => absurd rfl h
  sound : t.sound ≠ s.sound ∨ t.tones ≠ s.tones → ∃ x, i = .ldStVx x := by
    exact fun h => h.elim (absurd rfl) (absurd rfl)
  screen : t.screen ≠ s.screen ∨ t.dirty ≠ s.dirty → i = .cls ∨ ∃ x y n, i = .drw x y n := by
    exact fun h => h.elim (absurd rfl) (absurd rfl)
  mem : (∃ a, t.byteAt a ≠ s.byteAt a) → ∃ x, i = .ldBVx x ∨ i = .ldMemVx x := by exact fun ⟨_, h⟩ => absurd rfl h
  waitX : t.waitX ≠ s.waitX → ∃ x, i = .ldVxK x := by exact fun h => absurd rfl h
  draws : t.draws ≠ s.draws → ∃ x kk, i = .rnd x kk := by exact fun h => absurd rfl h
  cfg : t.cfg = s.cfg := by rfl
  keyIn : t.keyIn = s.keyIn := by rfl
  frame : t.frame = s.frame := by rfl
  pending : t.pending = s.pending := by rfl
  started : t.started = s.started := by rfl
  tornDown : t.tornDown = s.tornDown := by rfl

namespace Instr.Writes

variable {i : Instr} {s t u : State} {x y r : Nibble}

theorem of_next (h : (.next u : Outcome) = .next t) (w : i.Writes s u) : i.Writes s t :=
  Host.Outcome.next.inj h ▸ w

/-! ### The shared endings -/

theorem of_onlyRegsPc (h : s.OnlyRegsPc t) (hpc : t.pc = s.pc + 2)
    (hr : ∀ r, t.readReg r ≠ s.readReg r → i.MayWrite r) : i.Writes s t := by
  obtain ⟨-, ht⟩ := h
  rw [ht, hpc]
  exact { regs := hr }

theorem of_finish (b : Byte) (hx : i.MayWrite x) : i.Writes s (s.finish x b) := by
  refine of_onlyRegsPc (s.onlyRegsPc_finish x b) rfl fun r hr => ?_
  rw [State.readReg_finish] at hr
  split at hr
  · next h => exact h ▸ hx
  · exact absurd rfl hr

theorem of_finishFlag (b : Byte) (f : Bool) (hx : i.MayWrite x) (hf : i.MayWrite vF) :
    i.Writes s (s.finishFlag x b f) := by
  refine of_onlyRegsPc (s.onlyRegsPc_finishFlag x b f) rfl fun r hr => ?_
  rw [State.readReg_finishFlag] at hr
  split at hr
  · next h => exact h ▸ hf
  · split at hr
    · next h => exact h ▸ hx
    · exact absurd rfl hr

theorem of_skipIf (taken : Bool) (hi : i.MaySkip) : i.Writes s (s.skipIf taken) where
  pc hpc := by
    cases taken with
    | false => exact absurd rfl hpc
    | true => exact .inr (.inr (.inr ⟨rfl, hi⟩))

theorem of_faulted (k : FaultKind) (hi : i.MayFault) : i.Writes s (s.faulted k i) where
  pc _ := .inr (.inr (.inl ⟨rfl, rfl⟩))
  status _ := .inr (.inr ⟨rfl, hi⟩)

/-- The end of Fx55 and Fx65: I moves only under LS_INDEX_INC (43_index_memory.md R156). -/
theorem of_bumpIndex (hi : ∃ x, i = .ldMemVx x ∨ i = .ldVxMem x) (w : i.Writes s u.advance) :
    i.Writes s (u.bumpIndex x).advance := by
  unfold State.bumpIndex
  split
  · next hinc => exact { w with idx := fun _ => .inr (.inr ⟨w.cfg ▸ hinc, hi⟩) }
  · exact w

/-! ### The instructions that write more than one part, or may fault -/

theorem of_execRnd {kk : Byte} (h : execRnd x kk s = .next t) : (Instr.rnd x kk).Writes s t := by
  have w : (Instr.rnd x kk).Writes { s with draws := s.draws + 1 } _ :=
    of_finish (Config.freeRnd s.draws &&& kk) (x := x) (by simp [MayWrite])
  exact of_next h { regs := w.regs, draws := fun _ => ⟨x, kk, rfl⟩ }

theorem of_execRet (h : execRet s = .next t) : Instr.ret.Writes s t := by
  obtain ⟨-, rfl⟩ | ⟨j, hj, -, rfl⟩ := execRet_cases h
  · exact of_faulted _ (by simp [MayFault])
  · exact { pc := fun _ => .inl rfl, stack := fun _ => .inl rfl }

theorem of_execCall {nnn : Addr} (h : execCall nnn s = .next t) : (Instr.call nnn).Writes s t := by
  obtain ⟨-, rfl⟩ | ⟨hj, rfl⟩ := execCall_cases h
  · exact of_faulted _ (by simp [MayFault])
  · exact { pc := fun _ => .inr (.inl ⟨nnn, .inr rfl⟩), stack := fun _ => .inr ⟨nnn, rfl⟩ }

theorem of_execDrw {n : Nibble} (h : execDrw x y n s = .next t) : (Instr.drw x y n).Writes s t := by
  obtain ⟨-, -, rfl⟩ | ⟨-, rfl⟩ := execDrw_cases h
  · exact of_faulted _ (by simp [MayFault])
  · refine { regs := fun r hr => ?_, screen := fun _ => .inr ⟨x, y, n, rfl⟩ }
    rw [State.readReg_drawAt] at hr
    split at hr
    · next hF => simp [MayWrite, hF]
    · exact absurd rfl hr

theorem of_execAddIVx (h : execAddIVx x s = .next t) : (Instr.addIVx x).Writes s t := by
  obtain ⟨-, rfl⟩ | ⟨-, rfl⟩ := execAddIVx_cases h
  · exact of_faulted _ (by simp [MayFault])
  · exact { idx := fun _ => .inr (.inl ⟨x, .inr rfl⟩) }

theorem of_execLdBVx (h : execLdBVx x s = .next t) : (Instr.ldBVx x).Writes s t := by
  obtain ⟨-, rfl⟩ | ⟨-, -, -, rfl⟩ | ⟨-, -, rfl⟩ := execLdBVx_cases h
  · exact of_faulted _ (by simp [MayFault])
  · exact of_faulted _ (by simp [MayFault])
  · rw [State.putBytes_eq]
    exact { mem := fun _ => ⟨x, .inl rfl⟩ }

theorem of_execLdMemVx (h : execLdMemVx x s = .next t) : (Instr.ldMemVx x).Writes s t := by
  obtain ⟨-, rfl⟩ | ⟨-, -, -, rfl⟩ | ⟨-, -, rfl⟩ := execLdMemVx_cases h
  · exact of_faulted _ (by simp [MayFault])
  · exact of_faulted _ (by simp [MayFault])
  · refine of_bumpIndex ⟨x, .inl rfl⟩ ?_
    rw [State.putBytes_eq]
    exact { mem := fun _ => ⟨x, .inr rfl⟩ }

theorem of_execLdVxMem (h : execLdVxMem x s = .next t) : (Instr.ldVxMem x).Writes s t := by
  obtain ⟨-, rfl⟩ | ⟨-, rfl⟩ := execLdVxMem_cases h
  · exact of_faulted _ (by simp [MayFault])
  · refine of_bumpIndex ⟨x, .inr rfl⟩ (of_onlyRegsPc (s.onlyRegsPc_advance _) rfl fun r hr => ?_)
    rw [State.advance_readReg, State.readReg_writeRegsThrough] at hr
    split at hr
    · next hx => simp [MayWrite, hx]
    · exact absurd rfl hr

/-! ### Every instruction -/

/-- An instruction that answers a next state wrote only what it may write. -/
theorem of_exec : ∀ {i : Instr}, exec i s = .next t → i.Writes s t
  | .cls, h => of_next h { screen := fun _ => .inl rfl }
  | .ret, h => of_execRet h
  | .jp nnn, h => of_next h { pc := fun _ => .inr (.inl ⟨nnn, .inl rfl⟩) }
  | .call _, h => of_execCall h
  | .seImm .., h => of_next h (of_skipIf _ (by simp [MaySkip]))
  | .sneImm .., h => of_next h (of_skipIf _ (by simp [MaySkip]))
  | .seReg .., h => of_next h (of_skipIf _ (by simp [MaySkip]))
  | .sneReg .., h => of_next h (of_skipIf _ (by simp [MaySkip]))
  | .ldImm .., h => of_next h (of_finish _ (by simp [MayWrite]))
  | .addImm .., h => of_next h (of_finish _ (by simp [MayWrite]))
  | .ldReg .., h => of_next h (of_finish _ (by simp [MayWrite]))
  | .andReg .., h => of_next h (of_finish _ (by simp [MayWrite]))
  | .sub .., h => of_next h (of_finishFlag _ _ (by simp [MayWrite]) (by simp [MayWrite]))
  | .orReg .., h => of_next h (of_finish _ (by simp [MayWrite]))
  | .xorReg .., h => of_next h (of_finish _ (by simp [MayWrite]))
  | .addReg .., h => of_next h (of_finishFlag _ _ (by simp [MayWrite]) (by simp [MayWrite]))
  | .shr .., h => of_next h (of_finishFlag _ _ (by simp [MayWrite]) (by simp [MayWrite]))
  | .subn .., h => of_next h (of_finishFlag _ _ (by simp [MayWrite]) (by simp [MayWrite]))
  | .shl .., h => of_next h (of_finishFlag _ _ (by simp [MayWrite]) (by simp [MayWrite]))
  | .ldI nnn, h => of_next h { idx := fun _ => .inl ⟨nnn, rfl⟩ }
  | .rnd .., h => of_execRnd h
  | .drw .., h => of_execDrw h
  | .skp _, h => of_next h (of_skipIf _ (by simp [MaySkip]))
  | .sknp _, h => of_next h (of_skipIf _ (by simp [MaySkip]))
  | .ldVxDt _, h => of_next h (of_finish _ (by simp [MayWrite]))
  | .ldVxK x, h => of_next h { status := fun _ => .inl ⟨x, rfl, rfl, rfl⟩, waitX := fun _ => ⟨x, rfl⟩ }
  | .ldDtVx x, h => of_next h { delay := fun _ => ⟨x, rfl⟩ }
  | .ldStVx x, h => of_next h { sound := fun _ => ⟨x, rfl⟩ }
  | .addIVx _, h => of_execAddIVx h
  | .ldFVx x, h => of_next h { idx := fun _ => .inr (.inl ⟨x, .inl rfl⟩) }
  | .ldBVx _, h => of_execLdBVx h
  | .ldMemVx _, h => of_execLdMemVx h
  | .ldVxMem _, h => of_execLdVxMem h
  | .halt, h => of_next h { status := fun _ => .inr (.inl ⟨rfl, rfl, rfl⟩) }

end Instr.Writes

/-- Settles O54: each clause is a field of `Instr.Writes`, which every instruction keeps to. -/
theorem eachStateHasItsOnlyWriters : Obligations.EachStateHasItsOnlyWriters := by
  intro i s t h
  have w := Instr.Writes.of_exec h
  exact ⟨w.regs, w.pc, w.status, w.stack, w.idx, w.delay, w.sound, w.screen, w.mem, w.waitX, w.draws,
    w.cfg, w.keyIn, w.frame, w.pending, w.started, w.tornDown⟩

end Sys2Proof
end

section
/-! PROOFS. The running step: fetch, decode, execute (30_encoding.md). -/

namespace Sys2Proof.Machine

/-! ## The running step -/

/-- A Running core has no key to commit: its step is phase B alone (30_encoding.md R90). -/
theorem cpuStep_of_running {s : State} (h : s.status = .running) : cpuStep s = fetchExecute s := by
  unfold cpuStep; rw [h]

/-- Where two bytes can be fetched, phase B decodes them big-endian (30_encoding.md R90, 20_memory.md R51). -/
theorem fetchExecute_of_le {s : State} (h : s.pc.toNat ≤ 0xFFE) :
    fetchExecute s = decodeExecute (s.byteAt s.pc.toNat ++ s.byteAt (s.pc.toNat + 1) : BitVec 16) s.begin := by
  unfold fetchExecute; rw [State.fetch_of_le h]

theorem decodeExecute_of_decode_eq_none {s : State} {op : Word} (h : decode s.cfg op = none) :
    decodeExecute op s = .next (s.enterFault .decode (some op)) := by
  unfold decodeExecute; rw [h]

/-- Settles O10: the running step decodes the fetched word, which takes DECODE in the state that records the fetch. -/
theorem unrecognizedOpcodeFaults : Obligations.UnrecognizedOpcodeFaults := by
  rintro s u op hstep hrun hpc rfl hdec
  rw [step_eq_cpuStep hstep, cpuStep_of_running hrun, fetchExecute_of_le hpc]
  exact decodeExecute_of_decode_eq_none (s := u.begin) hdec

end Sys2Proof.Machine
end

section
/-! PROOFS. Which fault an instruction takes, and exactly when (60_exceptions.md R212). -/

namespace Sys2Proof

open Machine

/-- The condition under which a store of the `n + 1` bytes from I on raises fault `k` (60_exceptions.md R212). -/
def Machine.State.StoreRaises (s : State) (n : Nat) (k : FaultKind) : Prop :=
  (k = .memRange ∧ 0xFFF < s.idx.toNat + n) ∨
  (k = .fontWrite ∧ s.cfg.fontWritable = false ∧ s.idx.toNat ≤ 0x04F)

/-- The condition under which instruction `i` raises fault `k` in `s` (60_exceptions.md R212). -/
def Instr.Raises (i : Instr) (s : State) (k : FaultKind) : Prop :=
  match i with
  | .ret => k = .stackUnderflow ∧ s.sp.toNat = 0
  | .call _ => k = .stackOverflow ∧ s.sp.toNat = 16
  | .addIVx x => k = .indexOverflow ∧ 0xFFFF < s.idx.toNat + (s.readReg x).toNat
  | .drw _ _ n => k = .memRange ∧ 1 ≤ n.toNat ∧ 0xFFF < s.idx.toNat + (n.toNat - 1)
  | .ldBVx _ => s.StoreRaises 2 k
  | .ldMemVx x => s.StoreRaises x.toNat k
  | .ldVxMem x => k = .memRange ∧ 0xFFF < s.idx.toNat + x.toNat
  | _ => False

/-- The kinds for which `t` is Faulted are the kinds that `i` raises in `s`. -/
def Instr.FaultsExactly (i : Instr) (s t : State) : Prop :=
  ∀ k, (t.status = .faulted ∧ t.fault.map FaultRecord.kind = some k) ↔ i.Raises s k

variable {i : Instr} {s t : State}

theorem Instr.mayFault_of_raises {k : FaultKind} (h : i.Raises s k) : i.MayFault := by
  cases i <;> simp_all [Instr.Raises, Instr.MayFault]

/-- A store that leaves memory is clear of the font, so it raises MEM_RANGE alone. -/
theorem storeRaises_iff_of_range {n : Nat} (hn : n ≤ 15) (h : 0xFFF < s.idx.toNat + n) (k : FaultKind) :
    s.StoreRaises n k ↔ k = .memRange := by
  have hfont : ¬ s.idx.toNat ≤ 0x04F := by omega
  simp [State.StoreRaises, h, hfont]

theorem storeRaises_iff_of_font {n : Nat} (h : s.idx.toNat + n ≤ 0xFFF) (hw : s.cfg.fontWritable = false)
    (hf : s.idx.toNat ≤ 0x04F) (k : FaultKind) : s.StoreRaises n k ↔ k = .fontWrite := by
  simp [State.StoreRaises, hw, hf, Nat.not_lt.2 h]

theorem not_storeRaises {n : Nat} (h : s.idx.toNat + n ≤ 0xFFF)
    (hf : s.cfg.fontWritable = true ∨ 0x04F < s.idx.toNat) (k : FaultKind) : ¬ s.StoreRaises n k := by
  rintro (⟨-, hr⟩ | ⟨-, hw, hi⟩)
  · omega
  · exact hf.elim (by simp [hw]) (by omega)

@[simp] theorem Machine.State.putBytes_status (s : State) (a : Nat) (bs : List Byte) :
    (s.putBytes a bs).status = s.status := by
  rw [State.putBytes_eq]

@[simp] theorem Machine.State.bumpIndex_status (s : State) (x : Nibble) : (s.bumpIndex x).status = s.status := by
  rw [State.bumpIndex_eq]

@[simp] theorem Machine.State.writeRegsThrough_status (s : State) (x : Nibble) (bs : List Byte) :
    (s.writeRegsThrough x bs).status = s.status := by
  rw [State.writeRegsThrough]

namespace Instr.FaultsExactly

theorem of_faulted {k : FaultKind} (h : ∀ k', i.Raises s k' ↔ k' = k) : i.FaultsExactly s (s.faulted k i) := by
  intro k'
  simp [h, eq_comm]

theorem of_status_ne (h : t.status ≠ .faulted) (hr : ∀ k, ¬ i.Raises s k) : i.FaultsExactly s t :=
  fun k => iff_of_false (fun hf => h hf.1) (hr k)

/-- The three ends of a store of `n + 1` bytes, as the model's laws list them. -/
theorem of_store_cases {n : Nat} (hn : n ≤ 15) (hi : ∀ k, i.Raises s k ↔ s.StoreRaises n k) {u : State}
    (hu : u.status ≠ .faulted)
    (h : (0xFFF < s.indexAddr + n ∧ t = s.faulted .memRange i) ∨
      (s.indexAddr + n ≤ 0xFFF ∧ s.cfg.fontWritable = false ∧ s.indexAddr ≤ 0x04F ∧ t = s.faulted .fontWrite i) ∨
      (s.indexAddr + n ≤ 0xFFF ∧ (s.cfg.fontWritable = true ∨ 0x04F < s.indexAddr) ∧ t = u)) :
    i.FaultsExactly s t := by
  obtain ⟨hr, rfl⟩ | ⟨hr, hw, hf, rfl⟩ | ⟨hr, hf, rfl⟩ := h
  · exact of_faulted fun k => (hi k).trans (storeRaises_iff_of_range hn hr k)
  · exact of_faulted fun k => (hi k).trans (storeRaises_iff_of_font hr hw hf k)
  · exact of_status_ne hu fun k hk => not_storeRaises hr hf k ((hi k).1 hk)

variable {x y n : Nibble}

theorem of_execRet (hs : s.status ≠ .faulted) (h : execRet s = .next t) : Instr.ret.FaultsExactly s t := by
  obtain ⟨h0, rfl⟩ | ⟨j, hj, hsp, rfl⟩ := execRet_cases h
  · exact of_faulted fun _ => and_iff_left h0
  · exact of_status_ne hs (by rintro k ⟨-, h0⟩; omega)

theorem of_execCall {nnn : Addr} (hs : s.status ≠ .faulted) (h : execCall nnn s = .next t) :
    (Instr.call nnn).FaultsExactly s t := by
  obtain ⟨h0, rfl⟩ | ⟨hsp, rfl⟩ := execCall_cases h
  · exact of_faulted fun _ => and_iff_left h0
  · exact of_status_ne hs (by rintro k ⟨-, h0⟩; omega)

theorem of_execAddIVx (hs : s.status ≠ .faulted) (h : execAddIVx x s = .next t) :
    (Instr.addIVx x).FaultsExactly s t := by
  obtain ⟨h0, rfl⟩ | ⟨hsum, rfl⟩ := execAddIVx_cases h
  · exact of_faulted fun _ => and_iff_left h0
  · exact of_status_ne hs (by rintro k ⟨-, h0⟩; omega)

theorem of_execDrw (hs : s.status ≠ .faulted) (h : execDrw x y n s = .next t) :
    (Instr.drw x y n).FaultsExactly s t := by
  obtain ⟨hn, h0, rfl⟩ | ⟨hr, rfl⟩ := execDrw_cases h
  · exact of_faulted fun _ => and_iff_left ⟨hn, h0⟩
  · rw [State.indexAddr] at hr
    exact of_status_ne hs (by rintro k ⟨-, hn, h0⟩; omega)

theorem of_execLdVxMem (hs : s.status ≠ .faulted) (h : execLdVxMem x s = .next t) :
    (Instr.ldVxMem x).FaultsExactly s t := by
  obtain ⟨h0, rfl⟩ | ⟨hr, rfl⟩ := execLdVxMem_cases h
  · exact of_faulted fun _ => and_iff_left h0
  · rw [State.indexAddr] at hr
    exact of_status_ne (by simpa using hs) (by rintro k ⟨-, h0⟩; omega)

theorem of_execLdBVx (hs : s.status ≠ .faulted) (h : execLdBVx x s = .next t) : (Instr.ldBVx x).FaultsExactly s t :=
  of_store_cases (by decide) (fun _ => Iff.rfl) (by simpa using hs) (execLdBVx_cases h)

theorem of_execLdMemVx (hs : s.status ≠ .faulted) (h : execLdMemVx x s = .next t) :
    (Instr.ldMemVx x).FaultsExactly s t :=
  of_store_cases (Nat.le_of_lt_succ x.isLt) (fun _ => Iff.rfl) (by simpa using hs) (execLdMemVx_cases h)

/-- An instruction with no fault of its own never becomes Faulted: `Instr.Writes` gives only the others that status. -/
theorem of_not_mayFault (hm : ¬ i.MayFault) (hs : s.status ≠ .faulted) (h : exec i s = .next t) :
    i.FaultsExactly s t := by
  refine of_status_ne (fun ht => ?_) fun k hk => hm (mayFault_of_raises hk)
  have hne : t.status ≠ s.status := fun he => hs (he ▸ ht)
  obtain ⟨x, -, hw, -⟩ | ⟨-, hh, -⟩ | ⟨-, hi⟩ := (Instr.Writes.of_exec h).status (.inl hne)
  · simp [hw] at ht
  · simp [hh] at ht
  · exact hm hi

/-- Every instruction becomes Faulted exactly under its condition. -/
theorem of_exec (hs : s.status ≠ .faulted) (h : exec i s = .next t) : i.FaultsExactly s t := by
  by_cases hm : i.MayFault
  · obtain rfl | ⟨nnn, rfl⟩ | ⟨x, y, n, rfl⟩ | ⟨x, rfl | rfl | rfl | rfl⟩ := hm
    · exact of_execRet hs h
    · exact of_execCall hs h
    · exact of_execDrw hs h
    · exact of_execAddIVx hs h
    · exact of_execLdBVx hs h
    · exact of_execLdMemVx hs h
    · exact of_execLdVxMem hs h
  · exact of_not_mayFault hm hs h

end Instr.FaultsExactly

/-- Settles O16: the list of conditions is `Instr.Raises` read off constructor by constructor. -/
theorem instructionFaultsExactlyWhen : Obligations.InstructionFaultsExactlyWhen := by
  intro i s t hs h kind
  rw [Instr.FaultsExactly.of_exec hs h kind]
  cases i <;> simp [Instr.Raises, State.StoreRaises]

end Sys2Proof
end

section
/-! PROOFS. Control transfer, skips and halt (41_control.md). -/

namespace Sys2Proof

/-! ## What the decoder makes of the control rows -/

/-- Without the halt sentinel the decoder is the historical one (30_encoding.md R80). -/
theorem decode_of_haltOpcode_ne {c : Config} {op : Word} (h : c.haltOpcode ≠ some op) :
    decode c op = decodeHistorical c.fullAlu op := by
  rw [decode, if_neg h]

/-- Rows 5 and 9 exist with the low nibble 0 only (30_encoding.md R83). -/
theorem decodeHistorical_encodeXYN_eq_none (f : Bool) {m n : Nibble} (x y : Nibble) (hm : m = 0x5#4 ∨ m = 0x9#4)
    (hn : n ≠ 0) : decodeHistorical f (encodeXYN m x y n) = none := by
  rcases hm with rfl | rfl <;> simpa [decodeHistorical] using hn

/-! No row of the historical decoder answers HALT (30_encoding.md R80, R86). -/

theorem decodeRow0_ne_halt (op : Word) : decodeRow0 op ≠ some .halt := by
  simp [decodeRow0, ite_eq_iff]

theorem decodeRow8_ne_halt (f : Bool) (x y n : Nibble) : decodeRow8 f x y n ≠ some .halt := by
  simp [decodeRow8, ite_eq_iff]

theorem decodeRowE_ne_halt (x : Nibble) (kk : Byte) : decodeRowE x kk ≠ some .halt := by
  simp [decodeRowE, ite_eq_iff]

theorem decodeRowF_ne_halt (x : Nibble) (kk : Byte) : decodeRowF x kk ≠ some .halt := by
  simp [decodeRowF, ite_eq_iff]

theorem decodeHistorical_ne_halt (f : Bool) (op : Word) : decodeHistorical f op ≠ some .halt := by
  rcases nibble_cases (fieldMajor op) with h | h | h | h | h | h | h | h | h | h | h | h | h | h | h | h <;>
    simp [decodeHistorical, h, decodeRow0_ne_halt, decodeRow8_ne_halt, decodeRowE_ne_halt, decodeRowF_ne_halt]

namespace Machine

/-! ## The pc and the stack as numbers (10_state.md R23, R25; 30_encoding.md R74) -/

/-- The address a CALL pushes is all of its pc: a fetched instruction's pc is at most 0xFFE. -/
theorem toNat_setWidth_pc {pc : Word} (h : pc.toNat ≤ 0xFFE) : (pc.setWidth 12 : Addr).toNat = pc.toNat := by
  rw [BitVec.toNat_setWidth, Nat.mod_eq_of_lt (by omega)]

/-- The default advance after a pop does not wrap: a 12-bit address is far below the top of the 16-bit pc. -/
theorem toNat_zeroExtend_add_two (a : Addr) : (a.zeroExtend 16 + 2 : Word).toNat = a.toNat + 2 := by
  have ha : (a.zeroExtend 16 : Word).toNat = a.toNat := BitVec.toNat_setWidth_of_le (by decide)
  have hlt := a.isLt
  rw [BitVec.toNat_add_of_lt (by rw [ha]; simp; omega), ha]
  rfl

theorem toNat_add_one_of_lt {sp : Byte} (h : sp.toNat < 16) : (sp + 1).toNat = sp.toNat + 1 :=
  BitVec.toNat_add_of_lt (by simp; omega)

/-! ## CALL and RET for each stack pointer (41_control.md R100, R102) -/

variable {s : State}

theorem execCall_of_lt (nnn : Addr) (h : s.sp.toNat < 16) :
    execCall nnn s = .next { s with
      stack := s.stack.set s.sp.toNat (s.pc.setWidth 12), sp := s.sp + 1, pc := nnn.zeroExtend 16 } := by
  obtain ⟨t, ht⟩ := exec_answers (i := .call nnn) h.le
  obtain ⟨h0, -⟩ | ⟨_, rfl⟩ := execCall_cases ht
  · omega
  · exact ht

theorem execCall_of_full (nnn : Addr) (h : s.sp.toNat = 16) :
    execCall nnn s = .next (s.faulted .stackOverflow (.call nnn)) := by
  obtain ⟨t, ht⟩ := exec_answers (i := .call nnn) h.le
  obtain ⟨-, rfl⟩ | ⟨hlt, -⟩ := execCall_cases ht
  · exact ht
  · omega

theorem execRet_of_eq_succ {j : Nat} (hj : j < 16) (h : s.sp.toNat = j + 1) :
    execRet s = .next { s with sp := BitVec.ofNat 8 j, pc := (s.stack[j]).zeroExtend 16 + 2 } := by
  obtain ⟨t, ht⟩ := exec_answers (i := .ret) (s := s) (by omega)
  obtain ⟨h0, -⟩ | ⟨j', _, hsp, rfl⟩ := execRet_cases ht
  · omega
  · obtain rfl : j = j' := by omega
    exact ht

theorem execRet_of_empty (h : s.sp.toNat = 0) : execRet s = .next (s.faulted .stackUnderflow .ret) := by
  obtain ⟨t, ht⟩ := exec_answers (i := .ret) (s := s) (by omega)
  obtain ⟨-, rfl⟩ | ⟨j, -, hsp, -⟩ := execRet_cases ht
  · exact ht
  · omega

/-- Settles O30: the CALL stored its pc in the entry that the RET pops. -/
theorem retResumesAfterTheCall : Obligations.RetResumesAfterTheCall := by
  rintro nnn s t u _ hlt rfl hpc hcall hsp hentry
  obtain ⟨h16, -⟩ | ⟨_, rfl⟩ := execCall_cases hcall
  · omega
  have husp : u.sp.toNat = s.sp.toNat + 1 := by rw [hsp]; exact toNat_add_one_of_lt hlt
  have hpushed : (u.stack[s.sp.toNat]).zeroExtend 16 = s.pc := by
    apply BitVec.eq_of_toNat_eq
    rw [BitVec.toNat_setWidth_of_le (by decide), hentry, Vector.getElem_set_self, toNat_setWidth_pc hpc]
  exact ⟨_, execRet_of_eq_succ hlt husp, congrArg (· + 2) hpushed, by simp, rfl⟩

/-- Settles O26: JP is `State.jump`, which writes the pc alone. -/
theorem jpSetsPcToTheTarget : Obligations.JpSetsPcToTheTarget := fun nnn s =>
  ⟨rfl, s.jump nnn, rfl, BitVec.toNat_setWidth_of_le (by decide), fun _ => rfl, fun _ => rfl, rfl⟩

/-- Settles O27: one clause per range of the stack pointer. -/
theorem callPushesItsOwnAddress : Obligations.CallPushesItsOwnAddress := by
  refine fun nnn s => ⟨rfl, fun hsp hpc => ?_, execCall_of_full nnn⟩
  refine ⟨_, execCall_of_lt nnn hsp, BitVec.toNat_setWidth_of_le (by decide), toNat_add_one_of_lt hsp, fun j hj => ?_,
    fun _ => rfl, fun _ => rfl, rfl⟩
  split
  · next h => subst h; simp only [Vector.getElem_set_self, toNat_setWidth_pc hpc]
  · next h => exact Vector.getElem_set_ne hsp hj (Ne.symm h)

/-- Settles O28: one clause per range of the stack pointer. -/
theorem retPopsAndAdvances : Obligations.RetPopsAndAdvances := by
  refine fun s => ⟨rfl, fun j hj hsp => ?_, execRet_of_empty⟩
  exact ⟨_, execRet_of_eq_succ hj hsp, toNat_zeroExtend_add_two _, Nat.mod_eq_of_lt (by omega),
    fun _ => rfl, fun _ => rfl, rfl⟩

/-! ## Skips (41_control.md R103 to R106) -/

theorem State.onlyPc_skipIf (s : State) (taken : Bool) : s.OnlyPc (s.skipIf taken) :=
  ⟨fun _ => rfl, fun _ => rfl, rfl⟩

/-- Settles O31: the four skips are `State.skipIf` of their condition, and rows 5 and 9 have no other low nibble. -/
theorem registerSkipsAdvanceByTwoOrFour : Obligations.RegisterSkipsAdvanceByTwoOrFour := by
  intro x y kk s
  refine ⟨⟨rfl, rfl, rfl, rfl⟩, fun n hn => ⟨fun hh => ?_, fun hh => ?_⟩,
    ⟨_, rfl, s.onlyPc_skipIf _, by simp⟩, ⟨_, rfl, s.onlyPc_skipIf _, by simp⟩,
    ⟨_, rfl, s.onlyPc_skipIf _, by simp⟩, ⟨_, rfl, s.onlyPc_skipIf _, by simp⟩⟩
  · exact (decode_of_haltOpcode_ne hh).trans (decodeHistorical_encodeXYN_eq_none _ x y (.inl rfl) hn)
  · exact (decode_of_haltOpcode_ne hh).trans (decodeHistorical_encodeXYN_eq_none _ x y (.inr rfl) hn)

/-! ## HALT (41_control.md R107) -/

theorem encode_halt {c : Config} {w : Word} (h : c.haltOpcode = some w) : encode c .halt = w := by
  simp [encode, h]

theorem decode_haltOpcode {c : Config} {w : Word} (h : c.haltOpcode = some w) : decode c w = some .halt := by
  rw [decode, if_pos h]

theorem cpuStep_of_halted (h : s.status = .halted) : cpuStep s = .next s := by
  unfold cpuStep; rw [h]

theorem State.tick_of_halted (h : s.status = .halted) : s.tick = s := by
  unfold State.tick; rw [h]

/-- Settles O32: only the halt line of the decoder answers HALT, and a halted core is frozen. -/
theorem haltAdvancesAndFreezes : Obligations.HaltAdvancesAndFreezes := by
  refine fun s => ⟨fun w hw => ⟨encode_halt hw, decode_haltOpcode hw⟩, fun hnone op => ?_,
    { s.advance with status := .halted }, rfl, rfl, rfl, rfl, fun _ => rfl, fun _ => rfl, rfl,
    cpuStep_of_halted rfl, State.tick_of_halted rfl⟩
  rw [decode_of_haltOpcode_ne (by simp [hnone])]
  exact decodeHistorical_ne_halt _ op

end Machine
end Sys2Proof
end

section
/-! PROOFS. Register loads and arithmetic without a flag (42_alu.md). -/

namespace Sys2Proof.Machine

/-- The sum of two bytes wraps modulo 256 (42_alu.md R122). -/
theorem toNat_addResult (a b : Byte) : (addResult a b).toNat = (a.toNat + b.toNat) % 256 :=
  BitVec.toNat_ofNat _ _

theorem State.readReg_finish_of_ne (s : State) {x r : Nibble} (b : Byte) (h : r ≠ x) :
    (s.finish x b).readReg r = s.readReg r :=
  (s.readReg_finish x r b).trans (if_neg h)

theorem State.readReg_finish_self (s : State) (x : Nibble) (b : Byte) : (s.finish x b).readReg x = b :=
  (s.readReg_finish x x b).trans (if_pos rfl)

/-- Settles O18: LD Vx, kk is `State.finish` of the literal. -/
theorem ldImmLoadsTheLiteral : Obligations.LdImmLoadsTheLiteral := fun x kk s =>
  ⟨rfl, s.finish x kk, rfl, fun r => s.readReg_finish x r kk, rfl, s.onlyRegsPc_finish x kk⟩

/-- Settles O19: ADD Vx, kk is `State.finish` of the wrapped sum, so VF changes only as the destination. -/
theorem addImmWrapsWithoutFlag : Obligations.AddImmWrapsWithoutFlag := by
  refine fun x kk s => ⟨rfl, s.finish x (addResult (s.readReg x) kk), rfl, ?_, fun _ hr => s.readReg_finish_of_ne _ hr,
    rfl, s.onlyRegsPc_finish x _⟩
  rw [State.readReg_finish_self, toNat_addResult]

/-- Settles O20: LD Vx, Vy is `State.finish` of the source register. -/
theorem ldRegCopiesTheRegister : Obligations.LdRegCopiesTheRegister := fun x y s =>
  ⟨rfl, s.finish x (s.readReg y), rfl, fun r => s.readReg_finish x r _, rfl, s.onlyRegsPc_finish x _⟩

end Sys2Proof.Machine
end

section
/-! PROOFS. The index register and the memory instructions (43_index_memory.md). -/

namespace Sys2Proof.Machine

variable {s t : State} {x : Nibble} {a : Nat} {bs : List Byte}

/-! ## LD I, LD F and ADD I (43_index_memory.md R150 to R152) -/

/-- A glyph's address is below 0x50, far from the top of the 16-bit index register. -/
theorem toNat_glyphAddr (b : Byte) : (glyphAddr b).toNat = b.toNat % 16 * 5 := by
  rw [glyphAddr, BitVec.toNat_ofNat, Nat.mod_eq_of_lt (by omega)]

theorem State.onlyIndexPc_setIndex_advance (s : State) (w : Word) : s.OnlyIndexPc (s.setIndex w).advance :=
  ⟨fun _ => rfl, fun _ => rfl, rfl⟩

/-- Settles O33: both are `State.setIndex` and the default advance. -/
theorem ldIAndLdFSetTheIndex : Obligations.LdIAndLdFSetTheIndex := fun nnn x s =>
  ⟨rfl, rfl, ⟨_, rfl, BitVec.toNat_setWidth_of_le (by decide), rfl, s.onlyIndexPc_setIndex_advance _⟩,
    ⟨_, rfl, toNat_glyphAddr _, rfl, s.onlyIndexPc_setIndex_advance _⟩⟩

theorem execAddIVx_of_le (h : s.idx.toNat + (s.readReg x).toNat ≤ 0xFFFF) :
    execAddIVx x s = .next (s.setIndex (BitVec.ofNat 16 (s.idx.toNat + (s.readReg x).toNat))).advance := by
  rw [execAddIVx, if_neg (Nat.not_lt.2 h), State.settle_ok]

theorem execAddIVx_of_overflow (h : 0xFFFF < s.idx.toNat + (s.readReg x).toNat) :
    execAddIVx x s = .next (s.faulted .indexOverflow (.addIVx x)) := by
  rw [execAddIVx, if_pos h, State.settle_error]

/-- Settles O34: one clause per side of 0xFFFF; a sum that fits 16 bits is not reduced. -/
theorem addIIsUnmasked : Obligations.AddIIsUnmasked := by
  refine fun x s => ⟨rfl, fun h => ?_, execAddIVx_of_overflow⟩
  exact ⟨_, execAddIVx_of_le h, Nat.mod_eq_of_lt (Nat.lt_succ_of_le h), rfl, s.onlyIndexPc_setIndex_advance _⟩

/-! ## Memory after a store (20_memory.md R58) -/

/-- Reading memory looks at the listed bytes and the configuration only. -/
theorem State.byteAt_congr (hm : t.mem = s.mem) (hc : t.cfg = s.cfg) (a : Nat) : t.byteAt a = s.byteAt a := by
  rw [State.byteAt, State.byteAt, hm, hc]

/-- In a state with the memory a store left, each stored byte reads back. -/
theorem State.byteAt_stored {k : Nat} (hk : k < bs.length) (hm : t.mem = (s.putBytes a bs).mem)
    (hc : t.cfg = s.cfg) : t.byteAt (a + k) = bs[k] := by
  rw [State.byteAt_congr hm (by rw [hc, State.putBytes_cfg]), State.byteAt_putBytes, dif_pos (by omega)]
  simp only [Nat.add_sub_cancel_left]

/-- In a state with the memory a store left, every byte beside the stored ones reads as before. -/
theorem State.byteAt_of_not_stored {a' : Nat} (h : a' < a ∨ a + bs.length ≤ a')
    (hm : t.mem = (s.putBytes a bs).mem) (hc : t.cfg = s.cfg) : t.byteAt a' = s.byteAt a' := by
  rw [State.byteAt_congr hm (by rw [hc, State.putBytes_cfg]), State.byteAt_putBytes, dif_neg (by omega)]

/-! ## LD B (43_index_memory.md R153) -/

theorem execLdBVx_of_le (h : s.indexAddr + 2 ≤ 0xFFF) (hf : s.cfg.fontWritable = true ∨ 0x04F < s.indexAddr) :
    execLdBVx x s = .next { s with
      mem := (s.putBytes s.indexAddr (bcdDigits (s.readReg x))).mem, pc := s.pc + 2 } := by
  rw [execLdBVx, s.storeBytes_of_le _ 2 _ (length_bcdDigits _) h hf, State.settle_ok, State.putBytes_eq]
  rfl

theorem execLdBVx_of_range (h : 0xFFF < s.indexAddr + 2) :
    execLdBVx x s = .next (s.faulted .memRange (.ldBVx x)) := by
  rw [execLdBVx, s.storeBytes_of_range _ 2 _ (length_bcdDigits _) h, State.settle_error]

theorem execLdBVx_of_font (hw : s.cfg.fontWritable = false) (hi : s.indexAddr ≤ 0x04F) :
    execLdBVx x s = .next (s.faulted .fontWrite (.ldBVx x)) := by
  rw [execLdBVx, s.storeBytes_of_font _ 2 _ (length_bcdDigits _) (by omega) hw hi, State.settle_error]

/-- In a state with the memory that LD B, Vx left, the three digits stand most significant first. -/
theorem State.byteAt_storedDigits {b : Byte} (hm : t.mem = (s.putBytes a (bcdDigits b)).mem) (hc : t.cfg = s.cfg) :
    (t.byteAt a).toNat = b.toNat / 100 ∧ (t.byteAt (a + 1)).toNat = b.toNat / 10 % 10 ∧
      (t.byteAt (a + 2)).toNat = b.toNat % 10 := by
  have hb := b.isLt
  have hstored (k : Nat) (hk : k < 3) : t.byteAt (a + k) = (bcdDigits b)[k] := State.byteAt_stored hk hm hc
  refine ⟨(congrArg _ (hstored 0 (by decide))).trans ?_, (congrArg _ (hstored 1 (by decide))).trans ?_,
    (congrArg _ (hstored 2 (by decide))).trans ?_⟩ <;> exact Nat.mod_eq_of_lt (by omega)

/-- Settles O35: the store wrote `bcdDigits`; the faults are the store's own. -/
theorem ldBStoresThreeDigits : Obligations.LdBStoresThreeDigits := by
  refine fun x s => ⟨rfl, fun h hf => ?_, execLdBVx_of_range, execLdBVx_of_font⟩
  obtain ⟨hhundreds, htens, hones⟩ := State.byteAt_storedDigits (s := s) (a := s.indexAddr) (b := s.readReg x)
    (t := { s with mem := (s.putBytes s.indexAddr (bcdDigits (s.readReg x))).mem, pc := s.pc + 2 }) rfl rfl
  exact ⟨_, execLdBVx_of_le h hf, hhundreds, htens, hones,
    fun a ha => State.byteAt_of_not_stored (bs := bcdDigits _) ha rfl rfl, rfl, fun _ => rfl, rfl⟩

/-! ## LD [I], Vx (43_index_memory.md R154, R156) -/

@[simp] theorem State.putBytes_idx (s : State) (a : Nat) (bs : List Byte) : (s.putBytes a bs).idx = s.idx := by
  rw [State.putBytes_eq]

/-- The end of Fx55 and Fx65 looks at I and LS_INDEX_INC only. -/
theorem State.bumpIndex_idx_congr (hc : t.cfg = s.cfg) (hi : t.idx = s.idx) :
    (t.bumpIndex x).idx = (s.bumpIndex x).idx := by
  unfold State.bumpIndex
  rw [hc, hi]
  split
  · rfl
  · exact hi

theorem execLdMemVx_of_le (h : s.indexAddr + x.toNat ≤ 0xFFF)
    (hf : s.cfg.fontWritable = true ∨ 0x04F < s.indexAddr) :
    execLdMemVx x s = .next { s with
      mem := (s.putBytes s.indexAddr (s.regsThrough x)).mem, idx := (s.bumpIndex x).idx, pc := s.pc + 2 } := by
  rw [execLdMemVx, s.storeBytes_of_le _ _ _ (s.length_regsThrough x) h hf, State.settle_ok, State.bumpIndex_eq,
    State.bumpIndex_idx_congr (s.putBytes_cfg _ _) (s.putBytes_idx _ _), State.putBytes_eq]
  rfl

theorem execLdMemVx_of_range (h : 0xFFF < s.indexAddr + x.toNat) :
    execLdMemVx x s = .next (s.faulted .memRange (.ldMemVx x)) := by
  rw [execLdMemVx, s.storeBytes_of_range _ _ _ (s.length_regsThrough x) h, State.settle_error]

theorem execLdMemVx_of_font (hw : s.cfg.fontWritable = false) (hi : s.indexAddr ≤ 0x04F) :
    execLdMemVx x s = .next (s.faulted .fontWrite (.ldMemVx x)) := by
  have hx := x.isLt
  rw [execLdMemVx, s.storeBytes_of_font _ _ _ (s.length_regsThrough x) (by omega) hw hi, State.settle_error]

/-- In a state with the memory that LD [I], Vx left, the byte at I + r is `V[r]`. -/
theorem State.byteAt_storedReg {r : Nibble} (hr : r.toNat ≤ x.toNat)
    (hm : t.mem = (s.putBytes a (s.regsThrough x)).mem) (hc : t.cfg = s.cfg) :
    t.byteAt (a + r.toNat) = s.readReg r := by
  have hlt : r.toNat < (s.regsThrough x).length := by rw [State.length_regsThrough]; omega
  rw [State.byteAt_stored hlt hm hc, State.getElem_regsThrough]

/-- Settles O36: the store wrote V0..Vx and the end wrote I; the faults are the store's own. -/
theorem ldMemStoresTheRegisters : Obligations.LdMemStoresTheRegisters := by
  refine fun x s => ⟨rfl, fun h hf => ?_, execLdMemVx_of_range, execLdMemVx_of_font⟩
  refine ⟨_, execLdMemVx_of_le h hf, fun r hr => ?stored, fun a ha => ?others,
    s.bumpIndex_idx x h, rfl, fun _ => rfl, rfl⟩
  case stored => exact State.byteAt_storedReg hr rfl rfl
  case others => exact State.byteAt_of_not_stored (by rw [State.length_regsThrough]; omega) rfl rfl

/-! ## LD Vx, [I] (43_index_memory.md R155, R156) -/

theorem execLdVxMem_of_le (h : s.indexAddr + x.toNat ≤ 0xFFF) :
    execLdVxMem x s = .next { s with
      v := (s.writeRegsThrough x (s.bytesAt s.indexAddr (regCount x))).v,
      idx := (s.bumpIndex x).idx, pc := s.pc + 2 } := by
  rw [execLdVxMem, s.loadBytes_of_le _ _ (.inr h), State.settle_ok, State.bumpIndex_eq,
    State.bumpIndex_idx_congr (s := s) (t := s.writeRegsThrough x _) rfl rfl]
  rfl

theorem execLdVxMem_of_range (h : 0xFFF < s.indexAddr + x.toNat) :
    execLdVxMem x s = .next (s.faulted .memRange (.ldVxMem x)) := by
  rw [execLdVxMem, s.loadBytes_of_range _ (regCount x) (Nat.le_add_left 1 _) h, State.settle_error]

/-- The bytes read from `a` on go to V0..Vx in order, and the registers past Vx stay. -/
theorem State.readReg_loadedRegs (s : State) (x r : Nibble) (a : Nat) :
    (s.writeRegsThrough x (s.bytesAt a (regCount x))).readReg r =
      if r.toNat ≤ x.toNat then s.byteAt (a + r.toNat) else s.readReg r := by
  rw [State.readReg_writeRegsThrough]
  refine if_ctx_congr Iff.rfl (fun hr => ?_) fun _ => rfl
  have hlt : r.toNat < (s.bytesAt a (regCount x)).length := by
    rw [State.length_bytesAt]; exact Nat.lt_succ_of_le hr
  rw [List.getD_eq_getElem _ _ hlt, State.getElem_bytesAt]

/-- Settles O37: the load wrote V0..Vx and the end wrote I; the fault is the load's own. -/
theorem ldVxMemLoadsTheRegisters : Obligations.LdVxMemLoadsTheRegisters := by
  refine fun x s => ⟨rfl, fun h => ?_, execLdVxMem_of_range⟩
  exact ⟨_, execLdVxMem_of_le h, fun r => s.readReg_loadedRegs x r _, s.bumpIndex_idx x h, rfl, fun _ => rfl, rfl⟩

/-! ## A store and then a load (20_memory.md R58) -/

/-- LD [I], Vx that ran without a fault stored inside memory, and left its bytes in memory. -/
theorem stored_of_execLdMemVx (h : execLdMemVx x s = .next t) (ht : t.status = .running) :
    s.indexAddr + x.toNat ≤ 0xFFF ∧ t.mem = (s.putBytes s.indexAddr (s.regsThrough x)).mem ∧ t.cfg = s.cfg := by
  obtain ⟨-, rfl⟩ | ⟨-, -, -, rfl⟩ | ⟨hr, hf, -⟩ := execLdMemVx_cases h
  · cases ht
  · cases ht
  · rw [execLdMemVx_of_le hr hf] at h
    obtain rfl := Host.Outcome.next.inj h
    exact ⟨hr, rfl, rfl⟩

/-- Settles O38: the load is inside memory as the store was, and reads the bytes the store left. -/
theorem storedRegistersLoadBack : Obligations.StoredRegistersLoadBack := by
  intro x s t u _ hexec ht hmem hcfg hidx
  obtain ⟨hr, htm, htc⟩ := stored_of_execLdMemVx hexec ht
  have haddr : u.indexAddr = s.indexAddr := congrArg BitVec.toNat hidx
  refine ⟨_, execLdVxMem_of_le (haddr ▸ hr), rfl, fun r hrx => ?_⟩
  calc
    _ = u.byteAt (u.indexAddr + r.toNat) := (u.readReg_loadedRegs x r _).trans (if_pos hrx)
    _ = u.byteAt (s.indexAddr + r.toNat) := by rw [haddr]
    _ = s.readReg r := State.byteAt_storedReg hrx (hmem.trans htm) (hcfg.trans htc)

end Sys2Proof.Machine
end

section
/-! PROOFS. The display: CLS, DRW, the render read, and the dirty flag (44_display.md). -/

namespace Sys2Proof.Machine

/-! ## CLS (44_display.md R171) -/

/-- Settles O39: CLS writes `Screen.clear`, of which every pixel is unset. -/
theorem clsClearsEveryPixel : Obligations.ClsClearsEveryPixel := fun s =>
  ⟨rfl, { s with screen := Screen.clear, dirty := true }.advance, rfl, Screen.px_clear, rfl, rfl, fun _ => rfl,
    fun _ => rfl, rfl⟩

/-! ## The render read (44_display.md R178) -/

theorem State.render_of_dirty {s : State} (h : s.dirty = true) :
    s.render = { s with frame := some s.screen, dirty := false } := by
  rw [State.render, if_pos h]

theorem State.render_of_not_dirty {s : State} (h : s.dirty = false) : s.render = s := by
  rw [State.render, if_neg (Bool.eq_false_iff.1 h)]

/-- Settles O50: a queued render read is `State.render` of the state without it, one clause per value of `dirty`. -/
theorem renderCopiesWhenDirty : Obligations.RenderCopiesWhenDirty := by
  intro s rest ht hc hp
  have hstep : step s = .next ({ s with pending := rest } : State).render := step_of_pending ht hc hp
  exact ⟨fun hd => ⟨hd, hstep.trans (congrArg _ (State.render_of_dirty hd))⟩,
    fun hd => ⟨hd, hstep.trans (congrArg _ (State.render_of_not_dirty hd))⟩⟩

/-! ## What a sprite covers (44_display.md R172, R173) -/

variable {s t : State} {x y n : Nibble}

/-- DRW Vx, Vy, n covers pixel (c, r): a set bit of the sprite at I falls there. -/
def State.covers (s : State) (x y n : Nibble) (c : Fin 64) (r : Fin 32) : Bool :=
  spriteHit ((s.readReg x).toNat % 64) ((s.readReg y).toNat % 32) (s.bytesAt s.indexAddr n.toNat) c r

/-- In the spec's own terms: bit `7 - j` of the byte at `I + k`. -/
theorem State.covers_iff (c : Fin 64) (r : Fin 32) :
    s.covers x y n c r = true ↔ ∃ k j : Nat, k < n.toNat ∧ j < 8 ∧
      (s.readReg y).toNat % 32 + k = r.val ∧ ((s.readReg x).toNat % 64 + j) % 64 = c.val ∧
      (s.byteAt (s.indexAddr + k)).getLsbD (7 - j) = true := by
  simp only [State.covers, spriteHit_iff, State.length_bytesAt, State.getElem_bytesAt, exists_prop]

theorem State.bytesAt_congr (h : s.SameMemory t) (a k : Nat) : t.bytesAt a k = s.bytesAt a k := by
  induction k generalizing a with
  | zero => rfl
  | succ k ih => rw [State.bytesAt, State.bytesAt, h, ih]

/-- What is covered depends on the two coordinates, on I and on memory only. -/
theorem State.covers_congr (hx : t.readReg x = s.readReg x) (hy : t.readReg y = s.readReg y) (hi : t.idx = s.idx)
    (hm : s.SameMemory t) : t.covers x y n = s.covers x y n := by
  funext c r
  rw [State.covers, State.covers, hx, hy, State.indexAddr, State.indexAddr, hi, State.bytesAt_congr hm]

/-! ## DRW (44_display.md R172 to R174) -/

/-- The state DRW Vx, Vy, n leaves when it runs. -/
abbrev State.drawn (s : State) (x y n : Nibble) : State := s.drawAt x y (s.bytesAt s.indexAddr n.toNat)

theorem execDrw_of_le (h : n.toNat = 0 ∨ s.indexAddr + (n.toNat - 1) ≤ 0xFFF) :
    execDrw x y n s = .next (s.drawn x y n) := by
  simp only [execDrw, s.loadBytes_of_le _ _ h, State.settle_ok]

theorem execDrw_of_range (h : 1 ≤ n.toNat) (h' : 0xFFF < s.indexAddr + (n.toNat - 1)) :
    execDrw x y n s = .next (s.faulted .memRange (.drw x y n)) := by
  simp only [execDrw, s.loadBytes_of_range _ _ h h', State.settle_error]

/-- DRW XORs every pixel with whether it is covered. -/
theorem State.px_drawn (c : Fin 64) (r : Fin 32) :
    (s.drawn x y n).screen.px c r = (s.screen.px c r ^^ s.covers x y n c r) :=
  drawSprite_px _ _ _ _ c r

/-- A collision (44_display.md R174): DRW covers a set pixel. -/
abbrev State.Collides (s : State) (x y n : Nibble) : Prop :=
  ∃ c r, s.covers x y n c r = true ∧ s.screen.px c r = true

/-- DRW leaves the collision flag in VF. -/
theorem State.readReg_vF_drawn : (s.drawn x y n).readReg vF = flagByte (decide (s.Collides x y n)) := by
  rw [State.readReg_drawAt, if_pos rfl]
  refine congrArg flagByte ?_
  rw [Bool.eq_iff_iff, drawSprite_erased, decide_eq_true_iff]
  exact exists_congr fun c => exists_congr fun r => and_comm

theorem State.readReg_vF_of_collides (h : s.Collides x y n) : (s.drawn x y n).readReg vF = 1 := by
  rw [State.readReg_vF_drawn, decide_eq_true h]
  rfl

theorem State.readReg_vF_of_not_collides (h : ¬ s.Collides x y n) : (s.drawn x y n).readReg vF = 0 := by
  rw [State.readReg_vF_drawn, decide_eq_false h]
  rfl

theorem State.readReg_vF_drawn_eq_one_iff : (s.drawn x y n).readReg vF = 1 ↔ s.Collides x y n := by
  refine ⟨fun h => ?_, State.readReg_vF_of_collides⟩
  by_contra hno
  rw [State.readReg_vF_of_not_collides hno] at h
  exact absurd h (by decide)

theorem State.readReg_drawn_of_ne {r : Nibble} (h : r ≠ vF) : (s.drawn x y n).readReg r = s.readReg r :=
  (s.readReg_drawAt x y r _).trans (if_neg h)

/-- Settles O40: the covered pixels are those of `State.covers`, and DRW answers inside memory and faults beyond it. -/
theorem drwXorsTheSprite : Obligations.DrwXorsTheSprite := by
  intro x y n s covered hcov
  have hcovers (c r) : covered c r ↔ s.covers x y n c r = true := (hcov c r).trans (State.covers_iff c r).symm
  have hcollides : (∃ c r, covered c r ∧ s.screen.px c r = true) ↔ s.Collides x y n := by
    simp only [hcovers, State.Collides]
  refine ⟨rfl, fun h => ?_, execDrw_of_range⟩
  refine ⟨_, execDrw_of_le h, fun c r hc => ?flips, fun c r hc => ?stays,
    fun hp => State.readReg_vF_of_collides (hcollides.1 hp),
    fun hp => State.readReg_vF_of_not_collides fun hs => hp (hcollides.2 hs),
    fun _ => State.readReg_drawn_of_ne, rfl, rfl, fun _ => rfl, rfl⟩
  case flips => rw [State.px_drawn, (hcovers c r).1 hc, Bool.xor_true]
  case stays => rw [State.px_drawn, Bool.eq_false_iff.2 fun hs => hc ((hcovers c r).2 hs), Bool.xor_false]

/-- DRW that ran without a fault read its sprite inside memory. -/
theorem drawn_of_execDrw (h : execDrw x y n s = .next t) (ht : t.status = .running) :
    (n.toNat = 0 ∨ s.indexAddr + (n.toNat - 1) ≤ 0xFFF) ∧ t = s.drawn x y n := by
  obtain ⟨-, -, rfl⟩ | h := execDrw_cases h
  · cases ht
  · exact h

/-- Drawing twice what covers the same pixels cancels out: `p ^^ q ^^ q = p`. -/
theorem State.screen_drawn_drawn (h : (s.drawn x y n).covers x y n = s.covers x y n) :
    ((s.drawn x y n).drawn x y n).screen = s.screen :=
  Screen.ext_px fun c r => by rw [State.px_drawn, State.px_drawn, h, Bool.xor_assoc, Bool.xor_self, Bool.xor_false]

/-- After a DRW the covered pixels that are set are those that were unset before it. -/
theorem State.collides_drawn_iff (h : (s.drawn x y n).covers x y n = s.covers x y n) :
    (s.drawn x y n).Collides x y n ↔ ∃ c r, s.covers x y n c r = true ∧ s.screen.px c r = false := by
  simp only [State.Collides, h]
  refine exists_congr fun c => exists_congr fun r => and_congr_right fun hcov => ?_
  rw [State.px_drawn, hcov, Bool.xor_true, Bool.not_eq_true']

/-- Settles O41: the second DRW covers the pixels the first did, so it flips them back. -/
theorem drawingTwiceRestoresTheScreen : Obligations.DrawingTwiceRestoresTheScreen := by
  intro x y n s t _ hexec ht hx hy
  obtain ⟨hr, rfl⟩ := drawn_of_execDrw hexec ht
  have hcov : (s.drawn x y n).covers x y n = s.covers x y n := State.covers_congr hx hy rfl fun _ => rfl
  refine ⟨_, execDrw_of_le hr, State.screen_drawn_drawn hcov, ?_, ?_⟩
  · rw [State.readReg_vF_drawn_eq_one_iff, State.collides_drawn_iff hcov]
    simp only [State.covers_iff]
    constructor
    · rintro ⟨c, r, ⟨k, j, hk, hj, hrow, hcol, hbit⟩, hpx⟩
      exact ⟨k, j, c, r, hk, hj, hrow, hcol, hbit, hpx⟩
    · rintro ⟨k, j, c, r, hk, hj, hrow, hcol, hbit, hpx⟩
      exact ⟨c, r, ⟨k, j, hk, hj, hrow, hcol, hbit⟩, hpx⟩
  · by_cases hc : (s.drawn x y n).Collides x y n
    · exact .inl (State.readReg_vF_of_collides hc)
    · exact .inr (State.readReg_vF_of_not_collides hc)

/-! ## No instruction reads `dirty` (44_display.md R176) -/

/-- `s` with another value of `dirty`. -/
def State.withDirty (s : State) (b : Bool) : State := { s with dirty := b }

/-- From `s` with another value of `dirty`, `i` leads to `t` but for `dirty`. -/
def State.LeadsButDirty (s : State) (b : Bool) (i : Instr) (t : State) : Prop :=
  ∃ t', exec i (s.withDirty b) = .next t' ∧ t' = t.withDirty t'.dirty

variable {b : Bool}

theorem State.bytesAt_withDirty (a k : Nat) : (s.withDirty b).bytesAt a k = s.bytesAt a k :=
  State.bytesAt_congr (s := s) (t := s.withDirty b) (fun _ => rfl) a k

theorem State.putBytes_withDirty (s : State) (a : Nat) (bs : List Byte) :
    (s.withDirty b).putBytes a bs = (s.putBytes a bs).withDirty b := by
  induction bs generalizing s a with
  | nil => rfl
  | cons c bs ih => exact ih (s.putByte a c) (a + 1)

theorem State.bumpIndex_idx_withDirty : ((s.withDirty b).bumpIndex x).idx = (s.bumpIndex x).idx :=
  State.bumpIndex_idx_congr rfl rfl

theorem execRet_leadsButDirty (h : execRet s = .next t) : s.LeadsButDirty b .ret t := by
  obtain ⟨h0, rfl⟩ | ⟨j, hj, hsp, rfl⟩ := execRet_cases h
  · exact ⟨_, execRet_of_empty (s := s.withDirty b) h0, rfl⟩
  · exact ⟨_, execRet_of_eq_succ (s := s.withDirty b) hj hsp, rfl⟩

theorem execCall_leadsButDirty {nnn : Addr} (h : execCall nnn s = .next t) : s.LeadsButDirty b (.call nnn) t := by
  obtain ⟨h0, rfl⟩ | ⟨hsp, rfl⟩ := execCall_cases h
  · exact ⟨_, execCall_of_full (s := s.withDirty b) nnn h0, rfl⟩
  · exact ⟨_, execCall_of_lt (s := s.withDirty b) nnn hsp, rfl⟩

theorem execAddIVx_leadsButDirty (h : execAddIVx x s = .next t) : s.LeadsButDirty b (.addIVx x) t := by
  obtain ⟨h0, rfl⟩ | ⟨hsum, rfl⟩ := execAddIVx_cases h
  · exact ⟨_, execAddIVx_of_overflow (s := s.withDirty b) h0, rfl⟩
  · exact ⟨_, execAddIVx_of_le (s := s.withDirty b) hsum, rfl⟩

theorem execDrw_leadsButDirty (h : execDrw x y n s = .next t) : s.LeadsButDirty b (.drw x y n) t := by
  obtain ⟨hn, h0, rfl⟩ | ⟨hr, rfl⟩ := execDrw_cases h
  · exact ⟨_, execDrw_of_range (s := s.withDirty b) hn h0, rfl⟩
  · refine ⟨_, execDrw_of_le (s := s.withDirty b) hr, ?_⟩
    rw [State.drawn, State.bytesAt_withDirty]
    rfl

theorem execLdBVx_leadsButDirty (h : execLdBVx x s = .next t) : s.LeadsButDirty b (.ldBVx x) t := by
  obtain ⟨hr, rfl⟩ | ⟨-, hw, hf, rfl⟩ | ⟨hr, hf, -⟩ := execLdBVx_cases h
  · exact ⟨_, execLdBVx_of_range (s := s.withDirty b) hr, rfl⟩
  · exact ⟨_, execLdBVx_of_font (s := s.withDirty b) hw hf, rfl⟩
  · obtain rfl := Host.Outcome.next.inj ((execLdBVx_of_le hr hf).symm.trans h)
    refine ⟨_, execLdBVx_of_le (s := s.withDirty b) hr hf, ?_⟩
    rw [State.putBytes_withDirty]
    rfl

theorem execLdMemVx_leadsButDirty (h : execLdMemVx x s = .next t) : s.LeadsButDirty b (.ldMemVx x) t := by
  obtain ⟨hr, rfl⟩ | ⟨-, hw, hf, rfl⟩ | ⟨hr, hf, -⟩ := execLdMemVx_cases h
  · exact ⟨_, execLdMemVx_of_range (s := s.withDirty b) hr, rfl⟩
  · exact ⟨_, execLdMemVx_of_font (s := s.withDirty b) hw hf, rfl⟩
  · obtain rfl := Host.Outcome.next.inj ((execLdMemVx_of_le hr hf).symm.trans h)
    refine ⟨_, execLdMemVx_of_le (s := s.withDirty b) hr hf, ?_⟩
    rw [State.putBytes_withDirty, State.bumpIndex_idx_withDirty]
    rfl

theorem execLdVxMem_leadsButDirty (h : execLdVxMem x s = .next t) : s.LeadsButDirty b (.ldVxMem x) t := by
  obtain ⟨hr, rfl⟩ | ⟨hr, -⟩ := execLdVxMem_cases h
  · exact ⟨_, execLdVxMem_of_range (s := s.withDirty b) hr, rfl⟩
  · obtain rfl := Host.Outcome.next.inj ((execLdVxMem_of_le hr).symm.trans h)
    refine ⟨_, execLdVxMem_of_le (s := s.withDirty b) hr, ?_⟩
    rw [State.bytesAt_withDirty, State.bumpIndex_idx_withDirty]
    rfl

/-- Settles O55: an instruction that may fault takes the same end from both states; the others are one update, which
copies `dirty` or overwrites it. -/
theorem noInstructionReadsDirty : Obligations.NoInstructionReadsDirty := by
  intro i s t b h
  cases i
  case ret => exact execRet_leadsButDirty h
  case call => exact execCall_leadsButDirty h
  case addIVx => exact execAddIVx_leadsButDirty h
  case drw => exact execDrw_leadsButDirty h
  case ldBVx => exact execLdBVx_leadsButDirty h
  case ldMemVx => exact execLdMemVx_leadsButDirty h
  case ldVxMem => exact execLdVxMem_leadsButDirty h
  all_goals
    obtain rfl := Host.Outcome.next.inj h
    exact ⟨_, rfl, rfl⟩

end Sys2Proof.Machine
end

section
/-! PROOFS. The key wait with no key, and the delay timer (45_timers_keys.md). -/

namespace Sys2Proof.Machine

variable {s : State}

/-! ## The key wait (45_timers_keys.md R194) -/

/-- A host value outside 0..15 is no key (10_state.md R41). -/
theorem State.key_eq_none (h : ∀ k, s.keyIn = some k → k < 0 ∨ 15 < k) : s.key = none := by
  unfold State.key sampleKey
  cases hk : s.keyIn with
  | none => rfl
  | some k =>
    have hout : ¬ (0 ≤ k ∧ k ≤ 15) := by have := h k hk; omega
    exact dif_neg hout

theorem cpuStep_of_waiting_of_key_eq_none (hw : s.status = .waiting) (hk : s.key = none) : cpuStep s = .next s := by
  unfold cpuStep; simp only [hw, hk]

theorem State.outcome_of_waiting (h : s.status = .waiting) : s.outcome = .continue := by
  unfold State.outcome; rw [h]

/-- Settles O12: every value the host may give here samples to no key, and the waiting core answers its own state. -/
theorem waitingStepWithoutKeyDoesNothing : Obligations.WaitingStepWithoutKeyDoesNothing := by
  intro s u hstep hw hout
  rw [step_eq_cpuStep hstep]
  exact ⟨cpuStep_of_waiting_of_key_eq_none hw (State.key_eq_none hout), State.outcome_of_waiting hw⟩

/-! ## The delay timer (45_timers_keys.md R192, R197) -/

/-- Settles O43: LD Vx, DT is `State.finish` of the delay timer's value. -/
theorem ldVxDtReadsTheDelayTimer : Obligations.LdVxDtReadsTheDelayTimer := fun x s =>
  ⟨rfl, s.finish x s.delay.value, rfl, fun r => s.readReg_finish x r _, rfl, s.onlyRegsPc_finish x _⟩

theorem State.tick_delay_of_running (h : s.status = .running) : s.tick.delay = s.delay.tick := by
  unfold State.tick; rw [h]; rfl

/-- A timer just set is active, so its tick counts down, and at 0 it stays and stops (60_exceptions.md R222). -/
theorem tick_setTimer_zero : (setTimer 0).tick = ⟨0, false⟩ := by decide

/-- Settles O45: LD DT, Vx is `State.setDelay` and the default advance, and the tick after a set to 0 is that of
`setTimer 0`. -/
theorem ldDtSetsTheDelayTimer : Obligations.LdDtSetsTheDelayTimer := by
  intro x s
  refine ⟨rfl, (s.setDelay (s.readReg x)).advance, rfl, rfl, rfl, rfl, rfl, fun _ => rfl, fun _ => rfl, rfl, ?_⟩
  intro hrun h0
  have htick : (s.setDelay (s.readReg x)).advance.tick.delay = ⟨0, false⟩ := by
    rw [State.tick_delay_of_running (s := (s.setDelay _).advance) hrun, State.advance_delay, State.setDelay_delay, h0,
      tick_setTimer_zero]
  exact ⟨congrArg Timer.value htick, congrArg Timer.active htick⟩

end Sys2Proof.Machine
end

section
/-! PROOFS. The decoder against the encoder, and the decoder's outputs (30_encoding.md). -/

namespace Sys2Proof

open Machine

variable {c : Config} {op : Word} {i : Instr} {f : Bool}

/-! ## Decoding what was encoded (30_encoding.md R72, R73, R80) -/

/-- In a legal configuration the HALT line takes no word from another row (30_encoding.md R86). -/
theorem haltOpcode_ne_of_decodeHistorical (hc : c.legal = true) (h : decodeHistorical c.fullAlu op = some i) :
    c.haltOpcode ≠ some op := by
  intro hh
  simp [Config.legal, hh, h] at hc

theorem decode_of_decodeHistorical (hc : c.legal = true) (h : decodeHistorical c.fullAlu op = some i) :
    decode c op = some i :=
  (decode_of_haltOpcode_ne (haltOpcode_ne_of_decodeHistorical hc h)).trans h

/-- Every row but HALT's reads its own encoding back, field by field. -/
theorem decodeHistorical_encode (hi : i ≠ .halt) (hw : i.wellFormed c = true) :
    decodeHistorical c.fullAlu (encode c i) = some i := by
  cases i
  case halt => exact absurd rfl hi
  case cls => simp [encode, decodeHistorical, decodeRow0, show fieldMajor 0x00E0#16 = 0#4 by decide]
  case ret => simp [encode, decodeHistorical, decodeRow0, show fieldMajor 0x00EE#16 = 0#4 by decide]
  all_goals
    simp only [Instr.wellFormed] at hw
    simp [encode, decodeHistorical, decodeRow8, decodeRowE, decodeRowF, hw]

theorem decode_encode (hc : c.legal = true) (hw : i.wellFormed c = true) : decode c (encode c i) = some i := by
  by_cases hi : i = .halt
  · subst hi
    obtain ⟨w, hh⟩ := Option.isSome_iff_exists.1 hw
    rw [encode_halt hh, decode_haltOpcode hh]
  · exact decode_of_decodeHistorical hc (decodeHistorical_encode hi hw)

/-- The byte decoder reads the two bytes of a word that decodes and leaves the rest. -/
theorem decodeBytes_encodeBytes (h : decode c (encode c i) = some i) (rest : List Byte) :
    decodeBytes c (encodeBytes c i ++ rest) = .ok (i, rest) := by
  simp [encodeBytes, decodeBytes, h]

/-- Settles O2: each field of the encoding reads back, and legality keeps the HALT line away from the other rows. -/
theorem decodeOfEncodeGivesTheInstruction : Obligations.DecodeOfEncodeGivesTheInstruction := fun _ _ hc hw =>
  have h := decode_encode hc hw
  ⟨h, decodeBytes_encodeBytes h⟩

/-! ## Encoding what was decoded (30_encoding.md R73, R80) -/

/-- `i` is an instruction of configuration `c` whose encoding is `op`. -/
def Instr.EncodesTo (c : Config) (i : Instr) (op : Word) : Prop := encode c i = op ∧ i.wellFormed c = true

theorem encodesTo_of_decodeRow0 (h : decodeRow0 op = some i) : i.EncodesTo c op := by
  unfold decodeRow0 at h
  split_ifs at h with h1 h2 <;> cases h
  · exact ⟨h1.symm, rfl⟩
  · exact ⟨h2.symm, rfl⟩

theorem encodesTo_of_decodeRow8 {x y n : Nibble} (h : decodeRow8 c.fullAlu x y n = some i) :
    i.EncodesTo c (encodeXYN 0x8 x y n) := by
  unfold decodeRow8 at h
  split_ifs at h <;> cases h <;> simp_all [Instr.EncodesTo, encode, Instr.wellFormed]

theorem encodesTo_of_decodeRowE {x : Nibble} {kk : Byte} (h : decodeRowE x kk = some i) :
    i.EncodesTo c (encodeXK 0xE x kk) := by
  unfold decodeRowE at h
  split_ifs at h <;> cases h <;> simp_all [Instr.EncodesTo, encode, Instr.wellFormed]

theorem encodesTo_of_decodeRowF {x : Nibble} {kk : Byte} (h : decodeRowF x kk = some i) :
    i.EncodesTo c (encodeXK 0xF x kk) := by
  unfold decodeRowF at h
  split_ifs at h <;> cases h <;> simp_all [Instr.EncodesTo, encode, Instr.wellFormed]

/-- Each row of the decoder passes on every field of the opcode. -/
theorem encodesTo_of_decodeHistorical (h : decodeHistorical c.fullAlu op = some i) : i.EncodesTo c op := by
  have hA := encodeA_fields op
  have hXK := encodeXK_fields op
  have hXYN := encodeXYN_fields op
  rcases nibble_cases (fieldMajor op) with hm | hm | hm | hm | hm | hm | hm | hm | hm | hm | hm | hm | hm | hm | hm | hm
    <;> simp [decodeHistorical, hm] at h <;> rw [hm] at hA hXK hXYN
  · exact encodesTo_of_decodeRow0 h
  · exact h ▸ ⟨hA, rfl⟩
  · exact h ▸ ⟨hA, rfl⟩
  · exact h ▸ ⟨hXK, rfl⟩
  · exact h ▸ ⟨hXK, rfl⟩
  · obtain ⟨hn, rfl⟩ := h
    rw [hn] at hXYN
    exact ⟨hXYN, rfl⟩
  · exact h ▸ ⟨hXK, rfl⟩
  · exact h ▸ ⟨hXK, rfl⟩
  · exact hXYN ▸ encodesTo_of_decodeRow8 h
  · obtain ⟨hn, rfl⟩ := h
    rw [hn] at hXYN
    exact ⟨hXYN, rfl⟩
  · exact h ▸ ⟨hA, rfl⟩
  · exact h ▸ ⟨hXK, rfl⟩
  · exact h ▸ ⟨hXYN, rfl⟩
  · exact hXK ▸ encodesTo_of_decodeRowE h
  · exact hXK ▸ encodesTo_of_decodeRowF h

theorem encodesTo_of_decode (h : decode c op = some i) : i.EncodesTo c op := by
  by_cases hh : c.haltOpcode = some op
  · obtain rfl : i = .halt := Option.some.inj (h.symm.trans (decode_haltOpcode hh))
    exact ⟨encode_halt hh, by simp [Instr.wellFormed, hh]⟩
  · exact encodesTo_of_decodeHistorical (decode_of_haltOpcode_ne hh ▸ h)

/-- Settles O3: `Instr.EncodesTo`, row by row, and the halt word is HALT's encoding. -/
theorem encodeOfDecodeGivesTheOpcode : Obligations.EncodeOfDecodeGivesTheOpcode := fun _ _ _ => encodesTo_of_decode

/-! ## The words that are not recognized (30_encoding.md R85) -/

theorem decode_eq_none_iff :
    decode c op = none ↔ c.haltOpcode ≠ some op ∧ decodeHistorical c.fullAlu op = none := by
  by_cases hh : c.haltOpcode = some op
  · simp [hh, decode_haltOpcode hh]
  · simp [hh, decode_of_haltOpcode_ne hh]

/-- The rows with words that are not recognized, and row B, which has no instruction. -/
theorem decodeHistorical_eq_none_iff : decodeHistorical f op = none ↔
    (fieldMajor op = 0x0#4 ∧ decodeRow0 op = none) ∨ (fieldMajor op = 0x5#4 ∧ fieldN op ≠ 0x0#4) ∨
    (fieldMajor op = 0x9#4 ∧ fieldN op ≠ 0x0#4) ∨
    (fieldMajor op = 0x8#4 ∧ decodeRow8 f (fieldX op) (fieldY op) (fieldN op) = none) ∨ fieldMajor op = 0xB#4 ∨
    (fieldMajor op = 0xE#4 ∧ decodeRowE (fieldX op) (fieldKk op) = none) ∨
    (fieldMajor op = 0xF#4 ∧ decodeRowF (fieldX op) (fieldKk op) = none) := by
  rcases nibble_cases (fieldMajor op) with h | h | h | h | h | h | h | h | h | h | h | h | h | h | h | h <;>
    simp [decodeHistorical, h]

/-- The words of a row are a range of 4096 numbers. -/
theorem fieldMajor_eq_iff {m : Nibble} :
    fieldMajor op = m ↔ 4096 * m.toNat ≤ op.toNat ∧ op.toNat < 4096 * m.toNat + 4096 := by
  rw [← BitVec.toNat_inj, toNat_fieldMajor]
  omega

/-- Settles O6: a row is a range of the opcode's number, and its fields are remainders. -/
theorem notRecognizedSpaces : Obligations.NotRecognizedSpaces := by
  intro c op
  have hlt : op.toNat < 65536 := op.isLt
  rw [decode_eq_none_iff, decodeHistorical_eq_none_iff]
  refine and_congr_right fun _ => ?_
  simp [fieldMajor_eq_iff, decodeRow0_none, decodeRow8_none, decodeRowE_none, decodeRowF_none, and_assoc,
    ← BitVec.toNat_inj (x := fieldN op), toNat_fieldN, toNat_fieldKk, hlt]

/-! ## The decoder's outputs (30_encoding.md R95) -/

/-- Settles O7: `valid` and `kind` are read off the decoder's answer, and the fields are slices. -/
theorem decoderOutputsForEveryWord : Obligations.DecoderOutputsForEveryWord := by
  intro c op
  refine ⟨fun h => ?_, fun i h => ?_, toNat_fieldX op, toNat_fieldY op, toNat_fieldN op, toNat_fieldKk op,
    toNat_fieldNnn op⟩
  · simp [decoderOut, h]
  · simp [decoderOut, h]

/-- Settles O1: each word is run through the decoder. -/
theorem specWordsDecode : Obligations.SpecWordsDecode := by
  unfold Obligations.SpecWordsDecode
  decide

end Sys2Proof
end

section
/-! PROOFS. The decoder against the opcode table (30_encoding.md R81, R87). -/

namespace Sys2Proof

open Machine

variable {c : Config} {op op' : Word} {f : Bool}

/-! ## The kind of the row an opcode selects (30_encoding.md R81) -/

/-- The kind that the decoder without its HALT line answers. -/
def kindOf (f : Bool) (op : Word) : Option Kind := (decodeHistorical f op).map Instr.kind

/-- The kind of row 8 is told by the low nibble (30_encoding.md R84). -/
theorem kind_decodeRow8_congr (x y x' y' n : Nibble) :
    (decodeRow8 f x y n).map Instr.kind = (decodeRow8 f x' y' n).map Instr.kind := by
  simp [decodeRow8, apply_ite (Option.map Instr.kind), Instr.kind]

theorem kind_decodeRowE_congr (x x' : Nibble) (kk : Byte) :
    (decodeRowE x kk).map Instr.kind = (decodeRowE x' kk).map Instr.kind := by
  simp [decodeRowE, apply_ite (Option.map Instr.kind), Instr.kind]

theorem kind_decodeRowF_congr (x x' : Nibble) (kk : Byte) :
    (decodeRowF x kk).map Instr.kind = (decodeRowF x' kk).map Instr.kind := by
  simp [decodeRowF, apply_ite (Option.map Instr.kind), Instr.kind]

theorem kindOf_congr_of_major (hm : fieldMajor op = fieldMajor op')
    (h : fieldMajor op' ∉ [0x0#4, 0x5#4, 0x8#4, 0x9#4, 0xE#4, 0xF#4]) : kindOf f op = kindOf f op' := by
  rw [kindOf, kindOf]
  rcases nibble_cases (fieldMajor op') with e | e | e | e | e | e | e | e | e | e | e | e | e | e | e | e
    <;> simp_all [decodeHistorical, Instr.kind]

theorem kindOf_congr_of_major_low (hm : fieldMajor op = fieldMajor op') (hn : fieldN op = fieldN op')
    (h : fieldMajor op' ∈ [0x5#4, 0x8#4, 0x9#4]) : kindOf f op = kindOf f op' := by
  simp only [List.mem_cons, List.not_mem_nil, or_false] at h
  rcases h with h | h | h <;> rw [h] at hm <;> simp [kindOf, decodeHistorical, hm, h, hn]
  · split <;> rfl
  · exact kind_decodeRow8_congr ..
  · split <;> rfl

theorem kindOf_congr_of_major_byte (hm : fieldMajor op = fieldMajor op') (hk : fieldKk op = fieldKk op')
    (h : fieldMajor op' ∈ [0xE#4, 0xF#4]) : kindOf f op = kindOf f op' := by
  simp only [List.mem_cons, List.not_mem_nil, or_false] at h
  rcases h with h | h <;> rw [h] at hm <;> simp only [kindOf, decodeHistorical, hm, h, hk]
  · exact kind_decodeRowE_congr ..
  · exact kind_decodeRowF_congr ..

theorem kindOf_value : ∀ r ∈ opcodeRows, ∀ f, (r.needsFullAlu = true → f = true) → kindOf f r.value = some r.kind := by
  decide

/-- The masks of the table, and the fields by which they select. -/
theorem mask_cases : ∀ r ∈ opcodeRows,
    (r.mask = 0xFFFF#16) ∨
    (r.mask = 0xF000#16 ∧ r.value = encodeA (fieldMajor r.value) 0 ∧
      fieldMajor r.value ∉ [0x0#4, 0x5#4, 0x8#4, 0x9#4, 0xE#4, 0xF#4]) ∨
    (r.mask = 0xF00F#16 ∧ r.value = encodeXYN (fieldMajor r.value) 0 0 (fieldN r.value) ∧
      fieldMajor r.value ∈ [0x5#4, 0x8#4, 0x9#4]) ∨
    (r.mask = 0xF0FF#16 ∧ r.value = encodeXK (fieldMajor r.value) 0 (fieldKk r.value) ∧
      fieldMajor r.value ∈ [0xE#4, 0xF#4]) := by
  decide

/-- An opcode is of the kind of the row that it selects: the mask keeps the fields that tell the kind. -/
theorem kindOf_of_selects {r : OpcodeRow} (hr : r ∈ opcodeRows) (hs : op &&& r.mask = r.value) :
    kindOf f op = kindOf f r.value := by
  obtain hm | ⟨hm, hv, h⟩ | ⟨hm, hv, h⟩ | ⟨hm, hv, h⟩ := mask_cases r hr <;> rw [hm] at hs
  · rw [← hs]; congr; exact (BitVec.and_allOnes (x := op)).symm
  · exact kindOf_congr_of_major ((and_major _ _).1 (hs.trans hv)) h
  · obtain ⟨hmaj, hn⟩ := (and_major_low _ _ _).1 (hs.trans hv)
    exact kindOf_congr_of_major_low hmaj hn h
  · obtain ⟨hmaj, hk⟩ := (and_major_byte _ _ _).1 (hs.trans hv)
    exact kindOf_congr_of_major_byte hmaj hk h

theorem decode_kind_of_kindOf (hc : c.legal = true) {k : Kind} (h : kindOf c.fullAlu op = some k) :
    ∃ i, decode c op = some i ∧ i.kind = k := by
  obtain ⟨i, hi, rfl⟩ := Option.map_eq_some_iff.1 h
  exact ⟨i, decode_of_decodeHistorical hc hi, rfl⟩

theorem mem_opcodeTable_iff {r : OpcodeRow} : r ∈ c.opcodeTable ↔
    (r ∈ opcodeRows ∧ (r.needsFullAlu = true → c.fullAlu = true)) ∨
      ∃ w, c.haltOpcode = some w ∧ r = ⟨0xFFFF, w, .HALT, false⟩ := by
  rw [Config.opcodeTable, List.mem_append, List.mem_filter, haltRow]
  refine or_congr (and_congr_right fun _ => ?_) ?_
  · cases c.fullAlu <;> cases r.needsFullAlu <;> decide
  · cases c.haltOpcode <;> simp

/-- The decoder answers the kind of every row that the opcode selects. -/
theorem decode_of_selects (hc : c.legal = true) {r : OpcodeRow} (hr : r ∈ c.opcodeTable)
    (hs : op &&& r.mask = r.value) : ∃ i, decode c op = some i ∧ i.kind = r.kind := by
  obtain ⟨hr, hf⟩ | ⟨w, hw, rfl⟩ := mem_opcodeTable_iff.1 hr
  · exact decode_kind_of_kindOf hc ((kindOf_of_selects hr hs).trans (kindOf_value r hr _ hf))
  · obtain rfl : op = w := (BitVec.and_allOnes (x := op)).symm.trans hs
    exact ⟨.halt, decode_haltOpcode hw, rfl⟩

/-- Every instruction's encoding selects a row of its kind. -/
theorem selects_encode : ∀ i : Instr, Laws.OnItsRow.Statement i
  | .cls => Laws.OnItsRow.cls
  | .ret => Laws.OnItsRow.ret
  | .jp nnn => Laws.OnItsRow.jp nnn
  | .call nnn => Laws.OnItsRow.call nnn
  | .seImm x kk => Laws.OnItsRow.seImm x kk
  | .sneImm x kk => Laws.OnItsRow.sneImm x kk
  | .seReg x y => Laws.OnItsRow.seReg x y
  | .sneReg x y => Laws.OnItsRow.sneReg x y
  | .ldImm x kk => Laws.OnItsRow.ldImm x kk
  | .addImm x kk => Laws.OnItsRow.addImm x kk
  | .ldReg x y => Laws.OnItsRow.ldReg x y
  | .andReg x y => Laws.OnItsRow.andReg x y
  | .sub x y => Laws.OnItsRow.sub x y
  | .orReg x y => Laws.OnItsRow.orReg x y
  | .xorReg x y => Laws.OnItsRow.xorReg x y
  | .addReg x y => Laws.OnItsRow.addReg x y
  | .shr x y => Laws.OnItsRow.shr x y
  | .subn x y => Laws.OnItsRow.subn x y
  | .shl x y => Laws.OnItsRow.shl x y
  | .ldI nnn => Laws.OnItsRow.ldI nnn
  | .rnd x kk => Laws.OnItsRow.rnd x kk
  | .drw x y n => Laws.OnItsRow.drw x y n
  | .skp x => Laws.OnItsRow.skp x
  | .sknp x => Laws.OnItsRow.sknp x
  | .ldVxDt x => Laws.OnItsRow.ldVxDt x
  | .ldVxK x => Laws.OnItsRow.ldVxK x
  | .ldDtVx x => Laws.OnItsRow.ldDtVx x
  | .ldStVx x => Laws.OnItsRow.ldStVx x
  | .addIVx x => Laws.OnItsRow.addIVx x
  | .ldFVx x => Laws.OnItsRow.ldFVx x
  | .ldBVx x => Laws.OnItsRow.ldBVx x
  | .ldMemVx x => Laws.OnItsRow.ldMemVx x
  | .ldVxMem x => Laws.OnItsRow.ldVxMem x
  | .halt => Laws.OnItsRow.halt

/-- Settles O4: a decoded opcode is an encoding, which is on its row; and the row an opcode selects tells its kind. -/
theorem decoderAnswersTheSelectedRow : Obligations.DecoderAnswersTheSelectedRow := by
  intro c op k hc
  constructor
  · rintro ⟨i, hi, rfl⟩
    obtain ⟨rfl, hw⟩ := encodesTo_of_decode hi
    obtain ⟨r, hr, hk, hs⟩ := selects_encode i c hw
    exact ⟨r, hr, hs, hk⟩
  · rintro ⟨r, hr, hs, rfl⟩
    exact decode_of_selects hc hr hs

/-! ## No opcode selects two rows (30_encoding.md R87) -/

/-- Every kind has one row. -/
theorem nodup_kind_opcodeTable (c : Config) : (c.opcodeTable.map OpcodeRow.kind).Nodup := by
  have hrows : (opcodeRows.map OpcodeRow.kind).Nodup := by decide
  have hhalt : Kind.HALT ∉ opcodeRows.map OpcodeRow.kind := by decide
  have hsub := (List.filter_sublist (p := fun r => c.fullAlu || !r.needsFullAlu) (l := opcodeRows)).map OpcodeRow.kind
  rw [Config.opcodeTable, List.map_append]
  refine (hsub.nodup hrows).append ?_ ?_
  · cases h : c.haltOpcode <;> simp [haltRow, h]
  · intro k hk hk'
    obtain rfl : k = .HALT := by
      cases h : c.haltOpcode <;> simp_all [haltRow]
    exact hhalt (hsub.subset hk)

/-- A list without duplicates has one element at most when all its elements are equal. -/
theorem length_le_one_of_nodup {α β : Type} {g : α → β} {l : List α} (hl : (l.map g).Nodup) {b : β}
    (h : ∀ a ∈ l, g a = b) : l.length ≤ 1 := by
  have hrep : l.map g = List.replicate l.length b :=
    List.eq_replicate_iff.2 ⟨l.length_map g, by simpa using h⟩
  exact List.nodup_replicate.1 (hrep ▸ hl)

/-- Settles O5: two rows that an opcode selects are both of the kind the decoder answers, and each kind has one row. -/
theorem tableRowsAreDisjoint : Obligations.TableRowsAreDisjoint := by
  refine ⟨fun c op hc => ?_, fun c c' op hf hh => by rw [decode, decode, hf, hh]⟩
  have hsub := c.opcodeTable.filter_sublist (p := fun r => decide (op &&& r.mask = r.value))
  have hnodup := (hsub.map OpcodeRow.kind).nodup (nodup_kind_opcodeTable c)
  refine length_le_one_of_nodup (b := ((decode c op).map Instr.kind).getD .NONE) hnodup fun r hr => ?_
  obtain ⟨hr, hs⟩ := List.mem_filter.1 hr
  obtain ⟨i, hi, hk⟩ := decode_of_selects hc hr (of_decide_eq_true hs)
  simp [hi, hk]

end Sys2Proof
end

section
/-! PROOFS. What one transaction can be (10_state.md R41 to R47). -/

namespace Sys2Proof.Machine

variable {s t : State} {i : Instr}

/-! ## Which transaction is next -/

/-- The configuration a step refuses is one with a HALT_OPCODE of another row (30_encoding.md R86). -/
theorem not_legal_of_decode {c : Config} {h : Word} (hh : c.haltOpcode = some h)
    (hd : decode { c with haltOpcode := none } h = some i) : c.legal = false := by
  rw [decode_of_haltOpcode_ne (by simp)] at hd
  simp [Config.legal, hh, hd]

theorem step_of_illegal (ht : s.tornDown = false) (hc : s.cfg.legal = false) : step s = .refused .illegalConfig := by
  simp [step, nextTransaction, ht, hc]

/-- Settles O52: legality is the decoder without its HALT line not recognizing the halt word. -/
theorem illegalHaltOpcodeIsRefused : Obligations.IllegalHaltOpcodeIsRefused := fun _ _ _ ht hh hd =>
  step_of_illegal ht (not_legal_of_decode hh hd)

theorem step_of_empty (ht : s.tornDown = false) (hc : s.cfg.legal = true) (hp : s.pending = []) :
    step s = cpuStep s := by
  simp [step, nextTransaction, ht, hc, hp]

/-- A step that answers is a step of the core, or the transaction the host queued first. -/
theorem step_cases (h : step s = .next t) : s.tornDown = false ∧
    (cpuStep s = .next t ∨ ∃ op rest, s.pending = op :: rest ∧ transact op { s with pending := rest } = .next t) := by
  have ht : s.tornDown = false := by
    by_contra hn
    rw [step_of_tornDown (by simpa using hn)] at h
    cases h
  have hc : s.cfg.legal = true := by
    by_contra hn
    rw [step_of_illegal ht (by simpa using hn)] at h
    cases h
  refine ⟨ht, ?_⟩
  cases hp : s.pending with
  | nil => exact .inl (step_of_empty ht hc hp ▸ h)
  | cons op rest => exact .inr ⟨op, rest, rfl, step_of_pending ht hc hp ▸ h⟩

/-! ## The program load (70_reset_and_hazards.md R243) -/

theorem loadProgram_of_le {bytes : List Byte} (hs : s.started = false) (hl : bytes.length ≤ progMax) :
    loadProgram bytes s = .next { s.putBytes 0x200 bytes with pc := 0x200 } := by
  rw [loadProgram, if_neg (by simp [hs]), if_neg (Nat.not_lt.2 hl)]

theorem loadProgram_of_lt {bytes : List Byte} (hs : s.started = false) (hl : progMax < bytes.length) :
    loadProgram bytes s = .refused .loadTooLong := by
  rw [loadProgram, if_neg (by simp [hs]), if_pos hl]

theorem loadProgram_of_started {bytes : List Byte} (hs : s.started = true) :
    loadProgram bytes s = .refused .loadAfterStart := by
  rw [loadProgram, if_pos hs]

theorem loadProgram_cases {bytes : List Byte} (h : loadProgram bytes s = .next t) :
    s.started = false ∧ bytes.length ≤ progMax ∧ t = { s.putBytes 0x200 bytes with pc := 0x200 } := by
  cases hs : s.started
  case true => rw [loadProgram_of_started hs] at h; cases h
  by_cases hl : bytes.length ≤ progMax
  · rw [loadProgram_of_le hs hl] at h
    exact ⟨rfl, hl, (Host.Outcome.next.inj h).symm⟩
  · rw [loadProgram_of_lt hs (by omega)] at h; cases h

end Sys2Proof.Machine
end

section
/-! PROOFS. The step of the core in each status (30_encoding.md R90 to R92). -/

namespace Sys2Proof.Machine

variable {s : State} {i : Instr}

theorem cpuStep_of_faulted (h : s.status = .faulted) : cpuStep s = .next s := by
  unfold cpuStep; rw [h]

theorem State.tick_of_faulted (h : s.status = .faulted) : s.tick = s := by
  unfold State.tick; rw [h]

theorem State.outcome_of_halted (h : s.status = .halted) : s.outcome = .halt := by
  unfold State.outcome; rw [h]

theorem State.outcome_of_faulted (h : s.status = .faulted) : s.outcome = .fault := by
  unfold State.outcome; rw [h]

/-- Settles O14: the core and the tick answer their own state in either frozen status. -/
theorem frozenStatesStayAsTheyAre : Obligations.FrozenStatesStayAsTheyAre := by
  intro s u hstep hfrozen
  rw [step_eq_cpuStep hstep]
  refine ⟨?_, ?_, State.outcome_of_halted, State.outcome_of_faulted⟩
  · exact hfrozen.elim cpuStep_of_halted cpuStep_of_faulted
  · exact hfrozen.elim State.tick_of_halted State.tick_of_faulted

/-- A host value in 0..15 is that key (10_state.md R41). -/
theorem State.key_eq_some {k : Nat} (h : s.keyIn = some (k : Int)) (hk : k ≤ 15) :
    s.key = some ⟨k, Nat.lt_succ_of_le hk⟩ := by
  unfold State.key sampleKey
  rw [h]
  exact dif_pos ⟨by omega, by omega⟩

theorem cpuStep_of_waiting_of_key {k : Fin 16} (hw : s.status = .waiting) (hk : s.key = some k) :
    cpuStep s = fetchExecute (s.commitKey k) := by
  unfold cpuStep; simp only [hw, hk]

/-- Settles O13: the committed state is Running, where a step of the core is the phase B that the waiting step ends
with. -/
theorem waitingStepWithKeyCommitsAndRuns : Obligations.WaitingStepWithKeyCommitsAndRuns := by
  intro s u k hstep hw hin hk
  have hkey := State.key_eq_some hin hk
  refine ⟨u.commitKey _, rfl, fun r => u.readReg_writeReg u.waitX r (keyByte ⟨k, Nat.lt_succ_of_le hk⟩), ?_⟩
  rw [step_eq_cpuStep hstep, cpuStep_of_waiting_of_key hw hkey, cpuStep_of_running (u.commitKey_status _)]

theorem fetchExecute_of_lt (h : 0xFFE < s.pc.toNat) :
    fetchExecute s = .next (s.begin.enterFault .fetchRange none) := by
  unfold fetchExecute; rw [State.fetch_of_lt h]

theorem decodeExecute_of_decode_eq_some {op : Word} (h : decode s.cfg op = some i) :
    decodeExecute op s = exec i s := by
  unfold decodeExecute; rw [h]

/-- Settles O8: phase B executes what the fetched word decodes to, in the state that records the fetch. -/
theorem stepRunsTheDecodedInstruction : Obligations.StepRunsTheDecodedInstruction := by
  intro s u i hstep hrun hpc hdec
  rw [step_eq_cpuStep hstep, cpuStep_of_running hrun, fetchExecute_of_le hpc]
  exact decodeExecute_of_decode_eq_some (s := u.begin) hdec

/-- Settles O9: phase B fetches nothing above 0xFFE. -/
theorem fetchBeyondMemoryFaults : Obligations.FetchBeyondMemoryFaults := by
  intro s u hstep hrun hpc
  rw [step_eq_cpuStep hstep, cpuStep_of_running hrun]
  exact fetchExecute_of_lt hpc

/-- Settles O11: without FULL_ALU these words are among those that are not recognized, which take DECODE. -/
theorem optionalRowsFaultWithoutFullAlu : Obligations.OptionalRowsFaultWithoutFullAlu := by
  intro s u op hstep hrun hpc hop hlo hhi hlow hfull hhalt
  have hdec : decode u.cfg op = none :=
    (notRecognizedSpaces u.cfg op).2 ⟨hhalt, .inr (.inr (.inr (.inl ⟨hlo, hhi, .inr ⟨hfull, hlow⟩⟩)))⟩
  exact unrecognizedOpcodeFaults s u op hstep hrun hpc hop hdec

end Sys2Proof.Machine
end

section
/-! PROOFS. What a fault leaves (60_exceptions.md R211 to R214). -/

namespace Sys2Proof.Machine

variable {s t : State} {i : Instr}

/-- An instruction with a fault of its own takes it, or leaves the status alone. -/
theorem exec_faulted_or_status (hi : i.MayFault) (h : exec i s = .next t) :
    (∃ k, t = s.faulted k i) ∨ t.status = s.status := by
  obtain rfl | ⟨nnn, rfl⟩ | ⟨x, y, n, rfl⟩ | ⟨x, rfl | rfl | rfl | rfl⟩ := hi
  · obtain ⟨-, rfl⟩ | ⟨j, hj, -, rfl⟩ := execRet_cases h
    · exact .inl ⟨_, rfl⟩
    · exact .inr rfl
  · obtain ⟨-, rfl⟩ | ⟨-, rfl⟩ := execCall_cases h
    · exact .inl ⟨_, rfl⟩
    · exact .inr rfl
  · obtain ⟨-, -, rfl⟩ | ⟨-, rfl⟩ := execDrw_cases h
    · exact .inl ⟨_, rfl⟩
    · exact .inr rfl
  · obtain ⟨-, rfl⟩ | ⟨-, rfl⟩ := execAddIVx_cases h
    · exact .inl ⟨_, rfl⟩
    · exact .inr rfl
  · obtain ⟨-, rfl⟩ | ⟨-, -, -, rfl⟩ | ⟨-, -, rfl⟩ := execLdBVx_cases h
    · exact .inl ⟨_, rfl⟩
    · exact .inl ⟨_, rfl⟩
    · exact .inr (by simp)
  · obtain ⟨-, rfl⟩ | ⟨-, -, -, rfl⟩ | ⟨-, -, rfl⟩ := execLdMemVx_cases h
    · exact .inl ⟨_, rfl⟩
    · exact .inl ⟨_, rfl⟩
    · exact .inr (by simp)
  · obtain ⟨-, rfl⟩ | ⟨-, rfl⟩ := execLdVxMem_cases h
    · exact .inl ⟨_, rfl⟩
    · exact .inr (by simp)

/-- An instruction that ends Faulted raised a fault, and left the state before it with the record of that fault. -/
theorem exec_faulted_cases (hs : s.status ≠ .faulted) (h : exec i s = .next t) (ht : t.status = .faulted) :
    ∃ k, i.Raises s k ∧ t = s.faulted k i := by
  have hne : t.status ≠ s.status := fun he => hs (he ▸ ht)
  have hmay : i.MayFault := by
    obtain ⟨x, -, hw, -⟩ | ⟨-, hh, -⟩ | ⟨-, hi⟩ := (Instr.Writes.of_exec h).status (.inl hne)
    · simp [hw] at ht
    · simp [hh] at ht
    · exact hi
  obtain ⟨k, rfl⟩ | he := exec_faulted_or_status hmay h
  · exact ⟨k, (Instr.FaultsExactly.of_exec hs h k).1 ⟨rfl, rfl⟩, rfl⟩
  · exact absurd he hne

/-- Settles O15: the state is `State.faulted` of some kind. -/
theorem instructionFaultsArePrecise : Obligations.InstructionFaultsArePrecise := by
  intro i s t hs h ht
  obtain ⟨k, -, rfl⟩ := exec_faulted_cases hs h ht
  exact ⟨k, rfl⟩

/-- FETCH_RANGE and DECODE are no instruction's own faults (60_exceptions.md R212). -/
theorem kind_ne_of_raises {k : FaultKind} (h : i.Raises s k) : k ≠ .fetchRange ∧ k ≠ .decode := by
  constructor <;> rintro rfl <;> cases i <;> simp [Instr.Raises, State.StoreRaises] at h

/-- Settles O17: one record for each of phase B's ends, and the word of an instruction that faults is the one
fetched. -/
theorem stepFaultRecordsWhatItFetched : Obligations.StepFaultRecordsWhatItFetched := by
  rintro s u t op hstep hrun h ht rfl
  rw [step_eq_cpuStep hstep, cpuStep_of_running hrun] at h
  obtain ⟨hpc, rfl⟩ | ⟨op, hpc, rfl, ⟨hdec, rfl⟩ | ⟨i, hdec, hexec⟩⟩ := fetchExecute_cases h
  case inl => exact ⟨_, rfl, rfl, by simp [hpc], by simp [hpc], by simp; omega⟩
  case inr.inl => exact ⟨_, rfl, rfl, by simp [Nat.not_lt.2 hpc], by simp [hpc], by simp [hpc, hdec]⟩
  obtain ⟨k, hk, rfl⟩ := exec_faulted_cases (s := u.begin) (by simp [hrun]) hexec ht
  obtain ⟨hfetch, hdecode⟩ := kind_ne_of_raises hk
  obtain ⟨hop, -⟩ := encodesTo_of_decode hdec
  refine ⟨_, rfl, rfl, ?_, by simp [hpc, hfetch], by simp [hdec, hdecode]⟩
  rw [if_neg (Nat.not_lt.2 hpc)]
  exact congrArg some hop

end Sys2Proof.Machine
end

section
/-! PROOFS. The writers of VF, and the configuration, which none writes (10_state.md R21, 00_scope.md R10). -/

namespace Sys2Proof.Machine

variable {s t : State}

/-- Settles O53: the writers of a register, read at VF. -/
theorem onlyTheseInstructionsChangeVF : Obligations.OnlyTheseInstructionsChangeVF := by
  intro i s t h hne
  obtain ⟨kk, h⟩ | ⟨y, h⟩ | h | ⟨x, h, hx⟩ | ⟨-, ⟨x, y, h⟩ | h⟩ := (Instr.Writes.of_exec h).regs vF hne
  · exact .inr (.inr (.inl ⟨kk, h⟩))
  · obtain rfl | rfl | rfl | rfl | rfl | rfl | rfl | rfl | rfl := h <;> simp
  · exact .inr (.inr (.inr (.inr (.inl h))))
  · obtain rfl : x = vF := by bv_omega
    exact .inr (.inr (.inr (.inr (.inr h))))
  · exact .inl ⟨x, y, by tauto⟩
  · exact .inr (.inl h)

theorem fetchExecute_cfg (h : fetchExecute s = .next t) : t.cfg = s.cfg := by
  obtain ⟨-, rfl⟩ | ⟨op, -, -, ⟨-, rfl⟩ | ⟨i, -, hexec⟩⟩ := fetchExecute_cases h
  · rfl
  · rfl
  · exact (Instr.Writes.of_exec hexec).cfg

theorem cpuStep_cfg (h : cpuStep s = .next t) : t.cfg = s.cfg := by
  obtain rfl | ⟨-, h⟩ | ⟨k, -, -, h⟩ := cpuStep_cases h
  · rfl
  · exact fetchExecute_cfg h
  · exact fetchExecute_cfg (s := s.commitKey k) h

theorem State.tick_cfg (s : State) : s.tick.cfg = s.cfg := by
  unfold State.tick; split <;> rfl

theorem transact_cfg {op : HostOp} (h : transact op s = .next t) : t.cfg = s.cfg := by
  cases op with
  | step k => exact cpuStep_cfg (s := { s with keyIn := k }) h
  | tick => exact Host.Outcome.next.inj h ▸ s.tick_cfg
  | load bytes =>
    obtain ⟨-, -, rfl⟩ := loadProgram_cases h
    exact s.putBytes_cfg _ _
  | render =>
    obtain rfl := Host.Outcome.next.inj h
    unfold State.render; split <;> rfl
  | teardown => exact Host.Outcome.next.inj h ▸ rfl

/-- Settles O56: one case per transaction. -/
theorem stepKeepsTheConfiguration : Obligations.StepKeepsTheConfiguration := by
  intro s t h
  obtain ⟨-, h | ⟨op, rest, -, h⟩⟩ := step_cases h
  · exact cpuStep_cfg h
  · exact transact_cfg (s := { s with pending := rest }) h

end Sys2Proof.Machine
end

section
/-! PROOFS. Arithmetic with a flag, logic and random (42_alu.md). -/

namespace Sys2Proof.Machine

/-! ## Logic and random (42_alu.md R124, R130, R131, R136) -/

/-- Settles O21: the three are `State.finish` of their result, which writes no flag. -/
theorem logicalOpsWriteOnlyVx : Obligations.LogicalOpsWriteOnlyVx := fun x _ s =>
  ⟨rfl, rfl, rfl, ⟨_, rfl, fun r => s.readReg_finish x r _, rfl, s.onlyRegsPc_finish x _⟩,
    ⟨_, rfl, fun r => s.readReg_finish x r _, rfl, s.onlyRegsPc_finish x _⟩,
    ⟨_, rfl, fun r => s.readReg_finish x r _, rfl, s.onlyRegsPc_finish x _⟩⟩

/-- Settles O25: RND is `State.finish` of the masked draw in the state that counts the draw. -/
theorem rndMasksAFreeByte : Obligations.RndMasksAFreeByte := by
  intro x kk s
  refine ⟨rfl, _, rfl, fun r => State.readReg_finish _ x r _, ?_, ?_, rfl, rfl, State.onlyRegsPc_finish _ x _⟩
  · rintro rfl
    exact (State.readReg_finish_self _ x _).trans BitVec.and_zero
  · rintro rfl
    exact (State.readReg_finish_self _ x _).trans BitVec.and_allOnes

/-! ## The flag writers (42_alu.md R126, R132 to R135) -/

/-- What a flag writer answers: the result in V[x] unless the flag overwrites it, the flag in VF, the other registers,
the pc and the frame. `P` is what is said of the result, `n` the flag's number. -/
theorem State.finishFlag_answers (s : State) (x : Nibble) {b : Byte} {f : Bool} {P : Byte → Prop} {n : Nat} (hb : P b)
    (hf : (flagByte f).toNat = n) :
    ∃ t, (.next (s.finishFlag x b f) : Outcome) = .next t ∧ (x ≠ vF → P (t.readReg x)) ∧ (t.readReg vF).toNat = n ∧
      (∀ r, r ≠ x → r ≠ vF → t.readReg r = s.readReg r) ∧ t.pc = s.pc + 2 ∧ s.OnlyRegsPc t := by
  refine ⟨_, rfl, fun hx => ?_, ?_, fun r hr hF => ?_, rfl, s.onlyRegsPc_finishFlag x b f⟩
  · rwa [State.readReg_finishFlag, if_neg hx, if_pos rfl]
  · rwa [State.readReg_finishFlag, if_pos rfl]
  · rw [State.readReg_finishFlag, if_neg hF, if_neg hr]

theorem toNat_flagByte_decide (p : Prop) [Decidable p] : (flagByte (decide p)).toNat = if p then 1 else 0 := by
  by_cases h : p <;> simp [flagByte, h]

/-- Settles O22: SUB is `State.finishFlag` of the wrapped difference and the not-borrow. -/
theorem subSetsNotBorrow : Obligations.SubSetsNotBorrow := fun x _ s =>
  ⟨rfl, s.finishFlag_answers x (P := fun b => (b.toNat : Int) = _) (subResult_toInt _ _) (toNat_flagByte_decide _)⟩

/-- Settles O23: ADD Vx, Vy is `State.finishFlag` of the wrapped sum and the carry, SUBN that of SUB's with the operands
exchanged. -/
theorem addRegAndSubnSetTheFlag : Obligations.AddRegAndSubnSetTheFlag := fun x _ s =>
  ⟨rfl, rfl,
    s.finishFlag_answers x (P := fun b => b.toNat = _) (toNat_addResult _ _) (toNat_flagByte_decide _),
    s.finishFlag_answers x (P := fun b => (b.toNat : Int) = _) (subResult_toInt _ _) (toNat_flagByte_decide _)⟩

theorem toNat_shrResult (b : Byte) : (shrResult b).toNat = b.toNat / 2 := by
  simp [shrResult, Nat.shiftRight_eq_div_pow]

theorem toNat_shlResult (b : Byte) : (shlResult b).toNat = b.toNat * 2 % 256 := by
  simp [shlResult, Nat.shiftLeft_eq]

theorem toNat_flagByte_shrOut (b : Byte) : (flagByte (shrOut b)).toNat = b.toNat % 2 := by
  rw [shrOut, BitVec.getLsbD, Nat.testBit_eq_decide_div_mod_eq, toNat_flagByte_decide]
  split <;> omega

theorem toNat_flagByte_shlOut (b : Byte) : (flagByte (shlOut b)).toNat = b.toNat / 128 := by
  have hb := b.isLt
  rw [shlOut, BitVec.getLsbD, Nat.testBit_eq_decide_div_mod_eq, toNat_flagByte_decide]
  split <;> omega

theorem State.shiftOperand_eq (s : State) (x y : Nibble) :
    s.shiftOperand x y = if s.cfg.shiftSrc = .vy then s.readReg y else s.readReg x := by
  unfold State.shiftOperand
  cases s.cfg.shiftSrc <;> rfl

/-- Settles O24: the shifts are `State.finishFlag` of the operand moved by one bit and of the bit that it loses. -/
theorem shiftsSetTheBitShiftedOut : Obligations.ShiftsSetTheBitShiftedOut := by
  intro x y s b hb
  rw [← State.shiftOperand_eq] at hb
  subst hb
  exact ⟨rfl, rfl,
    s.finishFlag_answers x (P := fun b => b.toNat = _) (toNat_shrResult _) (toNat_flagByte_shrOut _),
    s.finishFlag_answers x (P := fun b => b.toNat = _) (toNat_shlResult _) (toNat_flagByte_shlOut _)⟩

end Sys2Proof.Machine
end

section
/-! PROOFS. The stack beyond its entries, and the instructions on keys and the sound timer (41_control.md,
45_timers_keys.md). -/

namespace Sys2Proof.Machine

/-- Settles O29: neither a full stack nor an entry of it has such a pointer. -/
theorem callAndRetStopBeyondTheStack : Obligations.CallAndRetStopBeyondTheStack := by
  intro nnn s h
  have hfull : s.sp ≠ 16 := by bv_omega
  have hempty : s.sp ≠ 0 := by bv_omega
  constructor
  · rw [exec, execCall, if_neg hfull, dif_neg (by omega)]
  · rw [exec, execRet, if_neg hempty, dif_neg (by omega)]

/-- Settles O42: SKP and SKNP are `State.skipIf` of the key test and of its negation. -/
theorem keySkipsCompareTheWholeByte : Obligations.KeySkipsCompareTheWholeByte := by
  intro x s pressed hp
  rw [← State.keyIs_iff] at hp
  refine ⟨rfl, rfl, ⟨_, rfl, s.onlyPc_skipIf _, fun h => ?_, fun h => ?_⟩,
    ⟨_, rfl, s.onlyPc_skipIf _, fun h => ?_, fun h => ?_⟩⟩
  · simp [hp.1 h]
  · simp [mt hp.2 h]
  · simp [hp.1 h]
  · simp [mt hp.2 h]

/-- Settles O44: no part of the state but status, `waitX` and the pc is written. -/
theorem ldVxKEntersTheWait : Obligations.LdVxKEntersTheWait := fun _ _ =>
  ⟨rfl, _, rfl, rfl, rfl, rfl, fun _ => rfl, fun _ => rfl, rfl⟩

/-- Settles O46: LD ST, Vx is `State.setSound` and the default advance. -/
theorem ldStSetsTheSoundTimer : Obligations.LdStSetsTheSoundTimer := fun x s =>
  ⟨rfl, (s.setSound (s.readReg x)).advance, rfl, rfl, rfl, rfl, rfl, fun _ => rfl, fun _ => rfl, rfl⟩

end Sys2Proof.Machine
end

section
/-! PROOFS. The tick of both timers, and the sound timer's one TONE_STOP (60_exceptions.md R221 to R223). -/

namespace Sys2Proof.Machine

variable {s t : State}

theorem State.tick_of_running_or_waiting (h : s.status = .running ∨ s.status = .waiting) :
    s.tick = State.tick.tickBoth s := by
  unfold State.tick
  rcases h with h | h <;> rw [h]

theorem Timer.tick_of_active {t : Timer} (h : t.active = true) :
    t.tick.value.toNat = t.value.toNat - 1 ∧ (t.tick.active = true ↔ 2 ≤ t.value.toNat) := by
  rw [Timer.tick, if_pos h]
  refine ⟨toNat_countDown _, ?_⟩
  rw [decide_eq_true_iff, Ne, countDown_eq_zero]
  omega

theorem Timer.tick_of_inactive {t : Timer} (h : t.active = false) : t.tick = t := by
  rw [Timer.tick, if_neg (by simp [h])]

theorem Timer.expires_iff {t : Timer} : t.expires = true ↔ t.active = true ∧ t.value.toNat ≤ 1 := by
  rw [Timer.expires, Bool.and_eq_true, decide_eq_true_iff, countDown_eq_zero]

/-- A tick of both timers appends TONE_STOP exactly when the sound timer deactivates (60_exceptions.md R222). -/
theorem State.tones_tickBoth (s : State) : (State.tick.tickBoth s).tones =
    s.tones ++ if s.sound.active = true ∧ s.sound.value.toNat ≤ 1 then [.toneStop] else [] := by
  simp only [State.tick.tickBoth, Timer.expires_iff]
  split <;> simp

/-- Settles O47: each timer ticks on its own, and the sound timer's expiry is what stops the tone. -/
theorem tickCountsBothTimersDown : Obligations.TickCountsBothTimersDown := by
  intro s rest ht hc hp hst
  refine ⟨_, step_of_pending ht hc hp, ?_⟩
  rw [State.tick_of_running_or_waiting (s := { s with pending := rest }) hst]
  exact ⟨Timer.tick_of_active, Timer.tick_of_inactive, Timer.tick_of_active, Timer.tick_of_inactive,
    State.tones_tickBoth _, rfl⟩

/-! ## A set and then ticks (95_test_vectors.md E9, K15) -/

/-- The sound timer `k` ticks after a set to `v` from Running, when `tones` were the signals before the set. -/
structure State.SoundAfter (t : State) (tones : List ToneSignal) (v k : Nat) : Prop where
  running : t.status = .running
  value : t.sound.value.toNat = v - k
  active : t.sound.active = true ↔ k < max v 1
  tones : t.tones = tones ++ if max v 1 ≤ k then [.toneStart, .toneStop] else [.toneStart]

theorem State.SoundAfter.of_setSound {x : Nibble} (hs : s.status = .running) (h : exec (.ldStVx x) s = .next t) :
    t.SoundAfter s.tones (s.readReg x).toNat 0 := by
  obtain rfl := Host.Outcome.next.inj h
  refine ⟨hs, rfl, ?_, ?_⟩
  · simp [State.setSound, setTimer]
  · simp

/-- The tick at which the timer deactivates is the one numbered `max v 1`. -/
theorem State.SoundAfter.expires_iff {l : List ToneSignal} {v k : Nat} (h : t.SoundAfter l v k) :
    (t.sound.active = true ∧ t.sound.value.toNat ≤ 1) ↔ k + 1 = max v 1 := by
  rw [h.active, h.value]
  omega

theorem State.SoundAfter.tick {l : List ToneSignal} {v k : Nat} (h : t.SoundAfter l v k) :
    t.tick.SoundAfter l v (k + 1) := by
  have hexp := h.expires_iff
  obtain ⟨hrun, hval, hact, htones⟩ := h
  have ⟨hvalue', hactive'⟩ :
      t.sound.tick.value.toNat = v - (k + 1) ∧ (t.sound.tick.active = true ↔ k + 1 < max v 1) := by
    by_cases ha : t.sound.active = true
    · obtain ⟨hvalue, hactive⟩ := Timer.tick_of_active ha
      rw [hvalue, hactive, hval]
      omega
    · have hk : max v 1 ≤ k := by rwa [hact, Nat.not_lt] at ha
      rw [Timer.tick_of_inactive (by simpa using ha), hval, hact]
      omega
  rw [State.tick_of_running_or_waiting (.inl hrun)]
  refine ⟨hrun, hvalue', hactive', ?_⟩
  rw [State.tones_tickBoth, htones, List.append_assoc]
  simp only [hexp]
  obtain hlt | heq | hgt := Nat.lt_trichotomy (k + 1) (max v 1)
  · rw [if_neg (by omega), if_neg (by omega), if_neg (by omega)]; rfl
  · rw [if_neg (by omega), if_pos heq, if_pos (by omega)]; rfl
  · rw [if_pos (by omega), if_neg (by omega), if_pos (by omega)]; rfl

/-- Settles O48: `State.SoundAfter`, by induction on the number of ticks. -/
theorem soundTimerStopsOnceOnReachingZero : Obligations.SoundTimerStopsOnceOnReachingZero := by
  intro x s t k hs h
  have hk : (State.tick^[k] t).SoundAfter s.tones (s.readReg x).toNat k := by
    induction k with
    | zero => exact .of_setSound hs h
    | succ k ih =>
      rw [Function.iterate_succ_apply']
      exact ih.tick
  exact ⟨hk.value, hk.tones⟩

end Sys2Proof.Machine
end

section
/-! PROOFS. The program load and construction (10_state.md, 70_reset_and_hazards.md). -/

namespace Sys2Proof.Machine

/-! ## The program load (70_reset_and_hazards.md R243) -/

/-- Settles O49: the load that is allowed is `State.putBytes` from 0x200 on; the other two are refused. -/
theorem loadPlacesTheProgram : Obligations.LoadPlacesTheProgram := by
  intro s bytes rest ht hc hp
  have hstep : step s = loadProgram bytes { s with pending := rest } := step_of_pending ht hc hp
  refine ⟨fun hs hl => ?_, fun hs hl => hstep.trans (loadProgram_of_lt hs hl),
    fun hs => hstep.trans (loadProgram_of_started hs)⟩
  refine ⟨_, hstep.trans (loadProgram_of_le hs hl), rfl, fun j hj => ?stored, fun a ha => ?others, ?regs, ?frame⟩
  case stored => exact State.byteAt_stored hj rfl (by simp)
  case others => exact State.byteAt_of_not_stored (s := { s with pending := rest }) ha rfl (by simp)
  case regs => rw [State.putBytes_eq]; exact fun _ => rfl
  case frame => rw [State.putBytes_eq]

/-! ## Construction (10_state.md R36) -/

/-- Memory at construction lists nothing, so it reads as the configuration says. -/
theorem State.byteAt_resetWith (c : Config) (a : Nat) : (State.resetWith c).byteAt a = c.initialByte a := rfl

theorem initialByte_font (c : Config) {d k : Nat} (hd : d < 16) (hk : k < 5) :
    c.initialByte (5 * d + k) = (c.font[d])[k] := by
  have hdiv : (5 * d + k) / 5 = d := by omega
  have hmod : (5 * d + k) % 5 = k := by omega
  rw [Config.initialByte, dif_pos (by omega)]
  simp only [hdiv, hmod]

theorem initialByte_zero {c : Config} (hc : c.resetFill = .zero) {a : Nat} (ha : 80 ≤ a) : c.initialByte a = 0 := by
  rw [Config.initialByte, dif_neg (by omega), hc]

/-- Settles O57: the fields of `State.resetWith`, which under RESET_FILL = zero are zero where the spec leaves them. -/
theorem resetHoldsTheSpecValues : Obligations.ResetHoldsTheSpecValues := by
  refine ⟨?_, rfl⟩
  rintro c s rfl
  refine ⟨rfl, rfl, rfl, fun d k => initialByte_font c, Screen.px_clear, rfl, rfl, rfl, rfl, rfl, rfl, fun hz => ?_⟩
  refine ⟨fun r => ?_, ?_, fun j hj => ?_, fun a ha => initialByte_zero hz ha⟩
  · simp [State.readReg, State.resetWith, hz]
  · simp [State.resetWith, hz]
  · simp [State.resetWith, hz]

/-- Settles O58: nothing is listed, stacked, ticking, sounding or faulted yet. -/
theorem resetMeetsTheInvariant : Obligations.ResetMeetsTheInvariant := by
  have hinv (c : Config) (hc : c.legal = true) : (State.resetWith c).Inv :=
    { legal := hc
      memory := ⟨.nil, by simp [State.resetWith]⟩
      stackPointer := Nat.zero_le 16
      returnAddresses := fun _ _ h => absurd h (Nat.not_lt_zero _)
      delayTimer := fun _ => rfl
      soundTimer := fun _ => rfl
      programCounter := by simp [State.resetWith]
      faultRecord := by simp [State.resetWith]
      tone := fun _ => rfl
      begun := fun h => absurd rfl h }
  exact ⟨hinv, hinv _ rfl⟩

end Sys2Proof.Machine
end

section
/-! PROOFS. Every transaction keeps the invariant of the machine, and a legal one answers (10_state.md). -/

namespace Sys2Proof.Machine

variable {s t : State} {i : Instr}

/-! ## The clauses of the invariant along an instruction -/

/-- The two writers of memory store inside it (20_memory.md R54). -/
theorem exec_memory_wf (hwf : Memory.wf s.cfg.initialByte s.mem) (h : exec i s = .next t) :
    Memory.wf t.cfg.initialByte t.mem := by
  cases i
  case ldBVx x =>
    obtain ⟨-, rfl⟩ | ⟨-, -, -, rfl⟩ | ⟨hr, -, rfl⟩ := execLdBVx_cases h
    · exact hwf
    · exact hwf
    · exact State.wf_putBytes hwf (by rw [length_bcdDigits]; omega)
  case ldMemVx x =>
    obtain ⟨-, rfl⟩ | ⟨-, -, -, rfl⟩ | ⟨hr, -, rfl⟩ := execLdMemVx_cases h
    · exact hwf
    · exact hwf
    · rw [State.bumpIndex_eq]
      exact State.wf_putBytes hwf (by rw [State.length_regsThrough]; omega)
  case ldVxMem x =>
    obtain ⟨-, rfl⟩ | ⟨-, rfl⟩ := execLdVxMem_cases h
    · exact hwf
    · rw [State.bumpIndex_eq]; exact hwf
  case ret => obtain ⟨-, rfl⟩ | ⟨_, _, -, rfl⟩ := execRet_cases h <;> exact hwf
  case call nnn => obtain ⟨-, rfl⟩ | ⟨-, rfl⟩ := execCall_cases h <;> exact hwf
  case addIVx x => obtain ⟨-, rfl⟩ | ⟨-, rfl⟩ := execAddIVx_cases h <;> exact hwf
  case drw x y n => obtain ⟨-, -, rfl⟩ | ⟨-, rfl⟩ := execDrw_cases h <;> exact hwf
  all_goals
    obtain rfl := Host.Outcome.next.inj h
    exact hwf

/-- CALL keeps the pointer inside the stack and pushes a fetched address; RET uncovers entries in use before. -/
theorem exec_stack (hsp : s.sp.toNat ≤ 16) (hpc : s.pc.toNat ≤ 0xFFE)
    (hret : ∀ (j : Nat) (h : j < 16), j < s.sp.toNat → (s.stack[j]).toNat ≤ 0xFFE) (h : exec i s = .next t) :
    t.sp.toNat ≤ 16 ∧ ∀ (j : Nat) (h : j < 16), j < t.sp.toNat → (t.stack[j]).toNat ≤ 0xFFE := by
  by_cases hsame : t.sp = s.sp ∧ t.stack = s.stack
  · obtain ⟨h1, h2⟩ := hsame
    rw [h1, h2]
    exact ⟨hsp, hret⟩
  rw [not_and_or] at hsame
  obtain rfl | ⟨nnn, rfl⟩ := (Instr.Writes.of_exec h).stack hsame
  · obtain ⟨-, rfl⟩ | ⟨k, hk, hsp', rfl⟩ := execRet_cases h
    · exact ⟨hsp, hret⟩
    · have hsp'' : (BitVec.ofNat 8 k).toNat = k := Nat.mod_eq_of_lt (by omega)
      refine ⟨by simp only [hsp'']; omega, fun j hj hlt => hret j hj ?_⟩
      simp only [hsp''] at hlt
      omega
  · obtain ⟨-, rfl⟩ | ⟨hlt, rfl⟩ := execCall_cases h
    · exact ⟨hsp, hret⟩
    · have hsp' : (s.sp + 1).toNat = s.sp.toNat + 1 := toNat_add_one_of_lt hlt
      refine ⟨by simp only [hsp']; omega, fun j hj hj' => ?_⟩
      simp only [hsp'] at hj'
      simp only [Vector.getElem_set]
      split
      · rw [toNat_setWidth_pc hpc]; exact hpc
      · exact hret j hj (by omega)

theorem toNat_zeroExtend_le (a : Addr) : (a.zeroExtend 16 : Word).toNat ≤ 0xFFF :=
  (BitVec.toNat_setWidth_of_le (by decide)).trans_le (Nat.le_of_lt_succ a.isLt)

/-- An instruction leads at most 4 past a fetched pc, 2 past a fetched address, or to a 12-bit target. -/
theorem exec_pc (hpc : s.pc.toNat ≤ 0xFFE)
    (hret : ∀ (j : Nat) (h : j < 16), j < s.sp.toNat → (s.stack[j]).toNat ≤ 0xFFE) (h : exec i s = .next t) :
    t.pc.toNat ≤ 0x1002 := by
  by_cases hadv : t.pc = s.pc + 2
  · bv_omega
  obtain rfl | ⟨nnn, rfl | rfl⟩ | ⟨hsame, -⟩ | ⟨hskip, -⟩ := (Instr.Writes.of_exec h).pc hadv
  · obtain ⟨-, rfl⟩ | ⟨j, hj, hsp, rfl⟩ := execRet_cases h
    · exact hpc.trans (by decide)
    · have hentry := hret j hj (by omega)
      have hnext := toNat_zeroExtend_add_two s.stack[j]
      simp only [hnext]
      omega
  · obtain rfl := Host.Outcome.next.inj h
    exact (toNat_zeroExtend_le nnn).trans (by decide)
  · obtain ⟨-, rfl⟩ | ⟨-, rfl⟩ := execCall_cases h
    · exact hpc.trans (by decide)
    · exact (toNat_zeroExtend_le nnn).trans (by decide)
  · rw [hsame]; omega
  · rw [hskip]; bv_omega

/-- An instruction that ends Faulted recorded its fault, and the others leave the record alone. -/
theorem exec_faultRecord (hs : s.status ≠ .faulted) (hrec : s.fault = none) (h : exec i s = .next t) :
    t.status = .faulted ↔ t.fault.isSome = true := by
  constructor
  · intro ht
    obtain ⟨k, -, rfl⟩ := exec_faulted_cases hs h ht
    rfl
  · intro ht
    have hne : t.fault ≠ s.fault := fun he => by rw [he, hrec] at ht; cases ht
    obtain ⟨x, -, -, he⟩ | ⟨-, -, he⟩ | ⟨hf, -⟩ := (Instr.Writes.of_exec h).status (.inr hne)
    · exact absurd he hne
    · exact absurd he hne
    · exact hf

/-- A timer that an instruction has set is active (45_timers_keys.md R196). -/
theorem setTimer_ok (b : Byte) : (setTimer b).ok := fun h => by cases h

theorem exec_delay_ok (hok : s.delay.ok) (h : exec i s = .next t) : t.delay.ok := by
  by_cases hsame : t.delay = s.delay
  · rwa [hsame]
  · obtain ⟨x, rfl⟩ := (Instr.Writes.of_exec h).delay hsame
    obtain rfl := Host.Outcome.next.inj h
    exact setTimer_ok _

theorem toneOn_append (l : List ToneSignal) (sig : ToneSignal) : toneOn (l ++ [sig]) = decide (sig = .toneStart) := by
  simp [toneOn]

/-- The tone follows the sound timer through a tick: it stops where the timer does. -/
theorem toneOn_tickBoth (h : toneOn s.tones = s.sound.active) :
    toneOn (State.tick.tickBoth s).tones = s.sound.tick.active := by
  rw [State.tones_tickBoth]
  by_cases ha : s.sound.active = true
  · obtain ⟨-, hactive⟩ := Timer.tick_of_active ha
    by_cases hv : s.sound.value.toNat ≤ 1
    · have hstopped : s.sound.tick.active = false := by rw [Bool.eq_false_iff, Ne, hactive]; omega
      rw [if_pos ⟨ha, hv⟩, toneOn_append, hstopped]
      rfl
    · rw [if_neg (fun hc => hv hc.2), List.append_nil, h, ha, hactive.2 (by omega)]
  · rw [if_neg (fun hc => ha hc.1), List.append_nil, h, Timer.tick_of_inactive (by simpa using ha)]

/-- Only LD ST touches the sound timer or the signals, and it leaves both on. -/
theorem exec_sound (hok : s.sound.ok) (h : exec i s = .next t) :
    t.sound.ok ∧ (toneOn s.tones = s.sound.active → toneOn t.tones = t.sound.active) := by
  by_cases hsame : t.sound = s.sound ∧ t.tones = s.tones
  · obtain ⟨h1, h2⟩ := hsame
    rw [h1, h2]
    exact ⟨hok, id⟩
  · rw [not_and_or] at hsame
    obtain ⟨x, rfl⟩ := (Instr.Writes.of_exec h).sound hsame
    obtain rfl := Host.Outcome.next.inj h
    exact ⟨setTimer_ok _, fun _ => toneOn_append _ _⟩

namespace State.Inv

/-- A fetched instruction keeps the invariant: one lemma per clause. -/
theorem of_exec (hs : s.Inv) (hrun : s.status = .running) (hstart : s.started = true) (hpc : s.pc.toNat ≤ 0xFFE)
    (h : exec i s = .next t) : t.Inv := by
  have hw := Instr.Writes.of_exec h
  have hnf : s.status ≠ .faulted := by simp [hrun]
  have hrec : s.fault = none := by simpa [hrun] using hs.faultRecord
  obtain ⟨hsp, hret⟩ := exec_stack hs.stackPointer hpc hs.returnAddresses h
  obtain ⟨hsound, htone⟩ := exec_sound hs.soundTimer h
  exact {
    legal := hw.cfg ▸ hs.legal
    memory := exec_memory_wf hs.memory h
    stackPointer := hsp
    returnAddresses := hret
    delayTimer := exec_delay_ok hs.delayTimer h
    soundTimer := hsound
    programCounter := exec_pc hpc hs.returnAddresses h
    faultRecord := exec_faultRecord hnf hrec h
    tone := fun ht => htone (hs.tone (hw.tornDown ▸ ht))
    begun := fun _ => hw.started.trans hstart }

/-! ## The invariant along a step of the core (30_encoding.md R90) -/

theorem begin (hs : s.Inv) : s.begin.Inv := { hs with begun := fun _ => rfl }

theorem enterFault (hs : s.Inv) (hstart : s.started = true) (k : FaultKind) (op : Option Word) :
    (s.enterFault k op).Inv :=
  { hs with faultRecord := by simp, begun := fun _ => hstart }

theorem commitKey (hs : s.Inv) (hw : s.status = .waiting) (k : Fin 16) : (s.commitKey k).Inv :=
  { hs with
    faultRecord := by simpa [hw] using hs.faultRecord
    begun := fun h => absurd rfl h }

theorem of_fetchExecute (hs : s.Inv) (hrun : s.status = .running) (h : fetchExecute s = .next t) : t.Inv := by
  obtain ⟨-, rfl⟩ | ⟨op, hpc, -, ⟨-, rfl⟩ | ⟨i, -, hexec⟩⟩ := fetchExecute_cases h
  · exact hs.begin.enterFault rfl _ _
  · exact hs.begin.enterFault rfl _ _
  · exact hs.begin.of_exec hrun rfl hpc hexec

theorem of_cpuStep (hs : s.Inv) (h : cpuStep s = .next t) : t.Inv := by
  obtain rfl | ⟨hrun, h⟩ | ⟨k, hw, -, h⟩ := cpuStep_cases h
  · exact hs
  · exact hs.of_fetchExecute hrun h
  · exact (hs.commitKey hw k).of_fetchExecute rfl h

/-! ## The invariant along the host's transactions (10_state.md R41 to R47) -/

theorem tick (hs : s.Inv) : s.tick.Inv := by
  have htick : (State.tick.tickBoth s).Inv :=
    { hs with
      delayTimer := Timer.tick_ok hs.delayTimer
      soundTimer := Timer.tick_ok hs.soundTimer
      tone := fun ht => toneOn_tickBoth (hs.tone ht) }
  unfold State.tick
  split
  · exact hs
  · exact hs
  · exact htick
  · exact htick

theorem of_loadProgram {bytes : List Byte} (hs : s.Inv) (h : loadProgram bytes s = .next t) : t.Inv := by
  obtain ⟨-, hl, rfl⟩ := loadProgram_cases h
  have hwf := State.wf_putBytes hs.memory (a := 0x200) (bs := bytes) (by rw [progMax] at hl; omega)
  rw [State.putBytes_eq] at hwf ⊢
  exact { hs with memory := hwf, programCounter := (by decide : (0x200 : Word).toNat ≤ 0x1002) }

theorem render (hs : s.Inv) : s.render.Inv := by
  unfold State.render
  split
  · exact { hs with }
  · exact hs

theorem teardown (hs : s.Inv) : s.teardown.Inv := { hs with tone := fun h => by cases h }

/-- The queue and the key are no part of the invariant. -/
theorem withQueue (hs : s.Inv) (rest : List HostOp) (k : Option Int) : { s with pending := rest, keyIn := k }.Inv :=
  { hs with }

theorem of_transact {op : HostOp} (hs : s.Inv) (h : transact op s = .next t) : t.Inv := by
  cases op with
  | step k => exact (hs.withQueue s.pending k).of_cpuStep h
  | load bytes => exact hs.of_loadProgram h
  | tick => exact Host.Outcome.next.inj h ▸ hs.tick
  | render => exact Host.Outcome.next.inj h ▸ hs.render
  | teardown => exact Host.Outcome.next.inj h ▸ hs.teardown

end State.Inv

/-- Settles O59: a step is a step of the core or a queued transaction, and each keeps every clause. -/
theorem everyStepKeepsTheInvariant : Obligations.EveryStepKeepsTheInvariant := by
  intro s t hs h
  obtain ⟨-, h | ⟨op, rest, -, h⟩⟩ := step_cases h
  · exact hs.of_cpuStep h
  · exact (hs.withQueue rest s.keyIn).of_transact h

/-! ## Progress (10_state.md section 12) -/

theorem fetchExecute_answers (h : s.sp.toNat ≤ 16) : ∃ t, fetchExecute s = .next t := by
  by_cases hpc : s.pc.toNat ≤ 0xFFE
  · rw [fetchExecute_of_le hpc]
    cases hd : decode s.cfg (s.byteAt s.pc.toNat ++ s.byteAt (s.pc.toNat + 1) : BitVec 16) with
    | none => exact ⟨_, decodeExecute_of_decode_eq_none (s := s.begin) hd⟩
    | some i =>
      rw [decodeExecute_of_decode_eq_some (s := s.begin) hd]
      exact exec_answers (s := s.begin) h
  · exact ⟨_, fetchExecute_of_lt (by omega)⟩

theorem cpuStep_answers (h : s.sp.toNat ≤ 16) : ∃ t, cpuStep s = .next t := by
  cases hst : s.status with
  | running => exact cpuStep_of_running hst ▸ fetchExecute_answers h
  | halted => exact ⟨_, cpuStep_of_halted hst⟩
  | faulted => exact ⟨_, cpuStep_of_faulted hst⟩
  | waiting =>
    cases hk : s.key with
    | none => exact ⟨_, cpuStep_of_waiting_of_key_eq_none hst hk⟩
    | some k => exact cpuStep_of_waiting_of_key hst hk ▸ fetchExecute_answers (s := s.commitKey k) h

/-- Settles O60: only CALL and RET beyond the stack end in `.fault`, and the host's duties exclude each refusal. -/
theorem legalTransactionsAlwaysAnswer : Obligations.LegalTransactionsAlwaysAnswer := by
  intro s hs ⟨ht, hload⟩
  cases hp : s.pending with
  | nil => exact step_of_empty ht hs.legal hp ▸ cpuStep_answers hs.stackPointer
  | cons op rest =>
    rw [step_of_pending ht hs.legal hp]
    cases op with
    | step k => exact cpuStep_answers (s := { s with pending := rest, keyIn := k }) hs.stackPointer
    | load bytes =>
      obtain ⟨hstart, hlen⟩ := hload bytes rest hp
      exact ⟨_, loadProgram_of_le hstart hlen⟩
    | tick => exact ⟨_, rfl⟩
    | render => exact ⟨_, rfl⟩
    | teardown => exact ⟨_, rfl⟩

end Sys2Proof.Machine
end
